-- ==== Sys2Proof/Word.lean ====
section
/-! DEFINITION. The machine's two data types (00_scope.md R6, R7; 10_state.md R20; 20_memory.md R44):
a word is a 24-bit pattern, an address a 20-bit one. Bit 0 is the least significant bit of both. -/

namespace Sys2Proof

/-- A 24-bit pattern: the content of a memory cell and of every register but IP (R7, R20). -/
abbrev Word := BitVec 24

/-- A 20-bit address of one word: the content of IP, and an instruction's argument (R24, R65). -/
abbrev Address := BitVec 20

end Sys2Proof
end

