-- ==== Sys2Proof/Syntax.lean ====
section
/-! DEFINITION. The instructions: one constructor per row of 30_encoding.md R70. An argument is the
20-bit address `extractArgument` answers, for either format (R65); an argument-less instruction carries
none, since its 16 argument bits are ignored (R68, log 15). -/

namespace Sys2Proof

/-- The instruction set of R70, in the table's order. -/
inductive Instr where
  | ldc  (c : Address)
  | ldv  (a : Address)
  | stv  (a : Address)
  | add  (a : Address)
  | and  (a : Address)
  | or   (a : Address)
  | xor  (a : Address)
  | eql  (a : Address)
  | jmp  (a : Address)
  | jmn  (a : Address)
  | ldiv (a : Address)
  | stiv (a : Address)
  | call (a : Address)
  | adc  (c : Address)
  | halt
  | not
  | rar
  | ret
  | ldra
  | stra
  | ldsp
  | stsp
  | ldfp
  | stfp
  | ldrs (d : Address)
  | strs (d : Address)
  | ldrf (d : Address)
  | strf (d : Address)
  deriving DecidableEq, Repr

end Sys2Proof
end

