-- ==== Sys2Proof/WellFormed.lean ====
section
/-! DEFINITION. Which instructions have an encoding of their own: the four format-L instructions that
take an argument have a 16-bit field for it (R61, R67), so their displacement is below 2^16. Every other
argument fits its 20-bit field by its type. `encode` of an instruction that fails the check drops the
upper bits, as R66 and R200 say. -/

namespace Sys2Proof

/-- A displacement that fits format L's 16-bit argument field (R61). -/
def fitsLargeArgument (d : Address) : Bool := decide (d.toNat < 0x10000)

/-- The instruction is exactly encodable (R67). -/
def Instr.wellFormed : Instr → Bool
  | .ldc _ | .ldv _ | .stv _ | .add _ | .and _ | .or _ | .xor _ | .eql _ => true
  | .jmp _ | .jmn _ | .ldiv _ | .stiv _ | .call _ | .adc _ => true
  | .halt | .not | .rar | .ret | .ldra | .stra | .ldsp | .stsp | .ldfp | .stfp => true
  | .ldrs d => fitsLargeArgument d
  | .strs d => fitsLargeArgument d
  | .ldrf d => fitsLargeArgument d
  | .strf d => fitsLargeArgument d

end Sys2Proof
end

