-- ==== Sys2Proof/Decode.lean ====
section
/-! DEFINITION. The word codec and the instruction table (30_encoding.md): field extraction R64, R65,
assembly R66, the table R70, resolution R94, the disassembly contract R75, and the encoder. Opcode
numbers are the spec's own assignment (D1, D2, D3; log 6). -/

namespace Sys2Proof

/-- `w[hi:lo]`, both bits included, read as an unsigned number (R6). -/
def bitField (w : Word) (hi lo : Nat) : Nat := w.toNat / 2 ^ lo % 2 ^ (hi - lo + 1)

/-- A word is in format L exactly when bits 23:20 are 0xF (R62, D1). -/
def isLargeFormat (w : Word) : Bool := bitField w 23 20 == 0xF

/-- `extractOpcode` (R64): 0xF0 to 0xFF in format L, 0x0 to 0xE in format S. -/
def extractOpcode (w : Word) : Nat :=
  if isLargeFormat w then bitField w 23 16 else bitField w 23 20

/-- `extractArgument` (R65): unsigned, 16 bits in format L and 20 in format S. The rule's
`coerceToAddress` cannot raise (C5) and is carried by the result's type (log 21). -/
def extractArgument (w : Word) : Address :=
  BitVec.ofNat 20 (if isLargeFormat w then bitField w 15 0 else bitField w 19 0)

/-- `combineInstruction` (R66): argument bits that do not fit their field are dropped. -/
def combineInstruction (opcode argument : Nat) : Word :=
  BitVec.ofNat 24
    (if opcode > 15 then (opcode <<< 16) ||| (argument &&& 0xFFFF)
     else (opcode <<< 20) ||| (argument &&& 0xFFFFF))

/-- One row of the instruction table (R70, R72): what the assembler and the engine know of it. -/
structure TableRow where
  mnemonic    : String
  opcode      : Nat
  hasArgument : Bool
  build       : Address → Instr

/-- The rows of R70 in format S. -/
def smallRows : List TableRow :=
  [ ⟨"LDC",  0x0, true, .ldc⟩,
    ⟨"LDV",  0x1, true, .ldv⟩,
    ⟨"STV",  0x2, true, .stv⟩,
    ⟨"ADD",  0x3, true, .add⟩,
    ⟨"AND",  0x4, true, .and⟩,
    ⟨"OR",   0x5, true, .or⟩,
    ⟨"XOR",  0x6, true, .xor⟩,
    ⟨"EQL",  0x7, true, .eql⟩,
    ⟨"JMP",  0x8, true, .jmp⟩,
    ⟨"JMN",  0x9, true, .jmn⟩,
    ⟨"LDIV", 0xA, true, .ldiv⟩,
    ⟨"STIV", 0xB, true, .stiv⟩,
    ⟨"CALL", 0xC, true, .call⟩,
    ⟨"ADC",  0xD, true, .adc⟩ ]

/-- The rows of R70 in format L. -/
def largeRows : List TableRow :=
  [ ⟨"HALT", 0xF0, false, fun _ => .halt⟩,
    ⟨"NOT",  0xF1, false, fun _ => .not⟩,
    ⟨"RAR",  0xF2, false, fun _ => .rar⟩,
    ⟨"RET",  0xF3, false, fun _ => .ret⟩,
    ⟨"LDRA", 0xF4, false, fun _ => .ldra⟩,
    ⟨"STRA", 0xF5, false, fun _ => .stra⟩,
    ⟨"LDSP", 0xF6, false, fun _ => .ldsp⟩,
    ⟨"STSP", 0xF7, false, fun _ => .stsp⟩,
    ⟨"LDFP", 0xF8, false, fun _ => .ldfp⟩,
    ⟨"STFP", 0xF9, false, fun _ => .stfp⟩,
    ⟨"LDRS", 0xFA, true, .ldrs⟩,
    ⟨"STRS", 0xFB, true, .strs⟩,
    ⟨"LDRF", 0xFC, true, .ldrf⟩,
    ⟨"STRF", 0xFD, true, .strf⟩ ]

/-- The instruction table (R70), a constant of the machine (R72). -/
def instructionTable : List TableRow := smallRows ++ largeRows

/-- Opcodes and names each occur once (R71 (d); U6). -/
def tableUnique (t : List TableRow) : Bool :=
  decide (t.Pairwise fun r q => r.opcode ≠ q.opcode ∧ r.mnemonic ≠ q.mnemonic)

/-- The row of an opcode, if the table has one (R94). -/
def resolve (opcode : Nat) : Option TableRow :=
  instructionTable.find? fun r => r.opcode == opcode

/-- Why a word is no instruction (R73, R94, R163). -/
inductive DecodeError where
  | instructionNotFound (opcode : Nat)
  deriving DecidableEq, Repr

/-- Stage 2 of the step (R93, R94): split the word, then resolve its opcode. Total on any word; an
unassigned opcode is rejected by name (R73, D22). -/
def decode (w : Word) : Except DecodeError Instr :=
  match resolve (extractOpcode w) with
  | some row => .ok (row.build (extractArgument w))
  | none => .error (.instructionNotFound (extractOpcode w))

/-- The disassembly contract (R75): is the stored word a known instruction? -/
def knownInstruction (w : Word) : Bool := (resolve (extractOpcode w)).isSome

/-- The instruction's opcode in R70. -/
def opcodeOf : Instr → Nat
  | .ldc _ => 0x0
  | .ldv _ => 0x1
  | .stv _ => 0x2
  | .add _ => 0x3
  | .and _ => 0x4
  | .or _ => 0x5
  | .xor _ => 0x6
  | .eql _ => 0x7
  | .jmp _ => 0x8
  | .jmn _ => 0x9
  | .ldiv _ => 0xA
  | .stiv _ => 0xB
  | .call _ => 0xC
  | .adc _ => 0xD
  | .halt => 0xF0
  | .not => 0xF1
  | .rar => 0xF2
  | .ret => 0xF3
  | .ldra => 0xF4
  | .stra => 0xF5
  | .ldsp => 0xF6
  | .stsp => 0xF7
  | .ldfp => 0xF8
  | .stfp => 0xF9
  | .ldrs _ => 0xFA
  | .strs _ => 0xFB
  | .ldrf _ => 0xFC
  | .strf _ => 0xFD

/-- The instruction's argument, `none` where `hasArgument` is false (R68). -/
def argumentOf : Instr → Option Address
  | .ldc a | .ldv a | .stv a | .add a | .and a | .or a | .xor a | .eql a => some a
  | .jmp a | .jmn a | .ldiv a | .stiv a | .call a | .adc a => some a
  | .halt | .not | .rar | .ret | .ldra | .stra | .ldsp | .stsp | .ldfp | .stfp => none
  | .ldrs d | .strs d | .ldrf d | .strf d => some d

/-- The canonical word of an instruction: R66, with the argument 0 where there is none (R68). -/
def encode (i : Instr) : Word :=
  combineInstruction (opcodeOf i) ((argumentOf i).getD 0).toNat

/-- What the decoder reads from an instruction whose bits, numbered as spec/opcode_table.json numbers
them, are `w` (its low `nbits` bits; the rest of the one 24-bit word is 0). A number that does not fit
one word is no instruction (R63). -/
def decodeTableWord (nbits w : Nat) : Option Instr :=
  if w % 2 ^ nbits < 2 ^ 24 then (decode (BitVec.ofNat 24 (w % 2 ^ nbits))).toOption else none

end Sys2Proof
end

