-- ==== Sys2Proof/Config.lean ====
section
/-! DEFINITION. The parameters of 00_scope.md R5 that the source itself states. What the spec decided
(the table, the rotate amount, ...) stands where it is used, under Machine/ and in Decode. There is no
free value: the spec leaves no machine value open (93_implementation_defined.md, Part 1). -/

namespace Sys2Proof

/-- `MEM_CELLS`: addresses are 0 to 2^20 - 1 (R5, R49). -/
@[simp] def Config.memCells : Nat := 0x100000

/-- `VALUE_MIN` = -2^23 (R5, R7). -/
@[simp] def Config.valueMin : Int := -8388608

/-- `VALUE_MAX` = 2^23 - 1 (R5, R7). -/
@[simp] def Config.valueMax : Int := 8388607

/-- `HISTORY_CAPACITY`: snapshots the host's history keeps by default (R5, R190). -/
def Config.historyCapacity : Nat := 10000

end Sys2Proof
end

