-- ==== Sys2Proof/Machine/State.lean ====
section
/-! DEFINITION. The whole state of the machine (10_state.md R20, R33, R37), its reset (R181, R182), and the
reasons a step can stop (60_exceptions.md R160 to R164). -/

namespace Sys2Proof.Machine

/-- Memory: a partial map from the 2^20 addresses to words (R33), as (address, word) pairs. Canonical:
addresses strictly rising. An address not listed is an UNSET cell, which reads as nothing (R35), so no
entry can equal it. The unit is the 24-bit word, the machine's smallest (R34, R44; log 1, log 2). -/
abbrev Memory := List (Nat × Word)

/-- The registers of R20 and the memory of R33; the spec gives the machine no other state (R30 to R32, R37). -/
structure State where
  /-- `ACC`, the accumulator (R22). -/
  acc : Word
  /-- `X`, shadow of the left ALU operand (R23). -/
  x   : Word
  /-- `Y`, shadow of the right ALU operand (R23). -/
  y   : Word
  /-- `IR`, the word fetched by the last committed step (R25). -/
  ir  : Word
  /-- `IP`, the address of the next word to fetch (R24). -/
  ip  : Address
  /-- `RA`, the return address register (R26). -/
  ra  : Word
  /-- `SP`, the stack pointer (R27). -/
  sp  : Word
  /-- `FP`, the frame pointer (R28). -/
  fp  : Word
  /-- Memory (R33). -/
  mem : Memory
  deriving DecidableEq, Repr

/-- The machine right after reset, with the empty image: every register 0 (R181), every cell unset (R182). -/
def State.reset : State where
  acc := 0
  x := 0
  y := 0
  ir := 0
  ip := 0
  ra := 0
  sp := 0
  fp := 0
  mem := []

/-- Why a step ends without a next state: the spec's `Halted` and its three `Failed` outcomes (R91, R160).
Whichever it is, the committed state stays as it was (R99, R170). -/
inductive Fault where
  /-- A read of an unset cell, with the address read (R161). Raised by the fetch and by the bodies of LDV,
  ADD, AND, OR, XOR, EQL, LDIV, STIV, LDRS, LDRF. Safe: the spec's own failure. -/
  | uninitializedMemory (addr : Address)
  /-- An integer outside the address domain (R162). Raised by stage 4 at IP = 0xFFFFF and by the bodies of
  LDIV, STIV, LDRS, STRS, LDRF, STRF, RET. Safe: the spec's own failure. -/
  | overflow (value : Int)
  /-- The fetched word's opcode is not in the table (R163). Raised by the step's stage 2. Safe: the spec's
  own failure. -/
  | instructionNotFound (opcode : Nat)
  /-- The outcome `Halted`, no error (R151, R164). Raised by HALT in stage 3. Safe: the spec's own outcome,
  which is distinct from `Stepped` and from every failure (R91; log 3). -/
  | programHalt
  deriving DecidableEq, Repr

/-- Why the model gives an instruction no meaning. -/
inductive Refusal where
  /-- The instruction's arm in `exec` has no meaning yet. Raised by no arm: every instruction has its
  meaning. Safe. -/
  | notModelled (mnemonic : String)
  deriving DecidableEq, Repr

end Sys2Proof.Machine
end

