-- ==== Sys2Proof/Machine/Ops.lean ====
section
/-! DEFINITION. The named operations every instruction is built from: the readings of a word and the two
coercions (00_scope.md R7 to R10), the register writes (R11), the memory port (20_memory.md R41, R42),
raising (R13, R170), stage 4 (R96), commit (R98, R99), and stages 1 and 2 of the step (R92 to R94). -/

namespace Sys2Proof.Machine

/-- `sval(w)`, the two's-complement reading of a word (R7). -/
def sval (w : Word) : Int := w.toInt

/-- `zext_24` of an argument or of IP (R10). -/
def zextWord (a : Address) : Word := a.setWidth 24

/-- `coerceToValue(v)`: the word whose signed reading is `v` modulo 2^24 (R8). Never fails. -/
def coerceToValue (v : Int) : Word := BitVec.ofInt 24 v

/-- `coerceToAddress(v)`: the address `v`, or Overflow outside [0, 2^20 - 1] (R9). -/
def coerceToAddress (v : Int) : Except Fault Address :=
  match v with
  | .ofNat n => if n ≤ 0xFFFFF then .ok (BitVec.ofNat 20 n) else .error (.overflow v)
  | .negSucc _ => .error (.overflow v)

/-- `ACC <- w` (R11). -/
def State.setAcc (s : State) (w : Word) : State := { s with acc := w }

/-- `X <- w` (R11). -/
def State.setX (s : State) (w : Word) : State := { s with x := w }

/-- `Y <- w` (R11). -/
def State.setY (s : State) (w : Word) : State := { s with y := w }

/-- `IR <- w` (R11, R92). -/
def State.setIr (s : State) (w : Word) : State := { s with ir := w }

/-- `IP <- a` (R11). -/
def State.setIp (s : State) (a : Address) : State := { s with ip := a }

/-- `RA <- w` (R11). -/
def State.setRa (s : State) (w : Word) : State := { s with ra := w }

/-- `SP <- w` (R11). -/
def State.setSp (s : State) (w : Word) : State := { s with sp := w }

/-- `FP <- w` (R11). -/
def State.setFp (s : State) (w : Word) : State := { s with fp := w }

/-- The memory of a state replaced whole. -/
def State.setMem (s : State) (m : Memory) : State := { s with mem := m }

/-- The word of a cell, `none` where it is unset (R33, R41). -/
def Memory.read : Memory → Nat → Option Word
  | [], _ => none
  | (k, v) :: m, a => if k = a then some v else Memory.read m a

/-- The memory with one cell set, in canonical form (R42). -/
def Memory.write : Memory → Nat → Word → Memory
  | [], a, w => [(a, w)]
  | (k, v) :: m, a, w =>
    if a < k then (a, w) :: (k, v) :: m
    else if a = k then (a, w) :: m
    else (k, v) :: Memory.write m a w

/-- The canonical form: addresses strictly rising, each of them one of the 2^20 (R33, R39). -/
abbrev Memory.wf (m : Memory) : Prop :=
  m.Pairwise (fun c d => c.1 < d.1) ∧ ∀ c ∈ m, c.1 < Config.memCells

/-- `MemRead(a, 1)` (R41). -/
def memRead (s : State) (a : Address) : Except Fault Word :=
  match Memory.read s.mem a.toNat with
  | some w => .ok w
  | none => .error (.uninitializedMemory a)

/-- `MemWrite(a, 1, w)` (R42). -/
def memWrite (s : State) (a : Address) (w : Word) : State := s.setMem (Memory.write s.mem a.toNat w)

/-- `raise e`: what this machine has for taking an exception. It ends the step with the outcome `e`,
discards every pending write, saves nothing and goes nowhere: the host keeps the state the step began with
(R13, R170). There is nothing to return from (R171). -/
def raise (e : Fault) : Host.Outcome State Fault Refusal := .fault e

/-- Commit (R98), or no partial state (R99). -/
def commit (r : Except Fault State) : Host.Outcome State Fault Refusal :=
  match r with
  | .ok t => .next t
  | .error e => raise e

/-- Stage 4 (R96): IP to the following word, Overflow past 0xFFFFF (D6, log 9), and both shadows to 0. -/
def advance (s : State) : Except Fault State := do
  let next ← coerceToAddress ((s.ip.toNat : Int) + 1)
  pure (((s.setIp next).setX 0).setY 0)

/-- Stages 4 and 5 (R96, R97), then commit: every instruction but HALT. The body sees what stage 4 left. -/
def execute (body : State → Except Fault State) (s : State) : Host.Outcome State Fault Refusal :=
  commit (advance s >>= body)

/-- Stage 1 (R92): the word at IP. -/
def fetch (s : State) : Except Fault Word := memRead s s.ip

/-- Stage 2 (R93, R94), with its failure as the step's outcome. -/
def split (w : Word) : Except Fault Instr :=
  match decode w with
  | .ok i => .ok i
  | .error (.instructionNotFound opcode) => .error (.instructionNotFound opcode)

/-- Stages 1 and 2: the decoded instruction and the working state whose IR holds the fetched word. -/
def fetchAndDecode (s : State) : Except Fault (Instr × State) := do
  let w ← fetch s
  let i ← split w
  pure (i, s.setIr w)

end Sys2Proof.Machine
end

