-- ==== Sys2Proof/Machine/Operands.lean ====
section
/-! DEFINITION. The addressing modes (41_load_store.md R110 (d)) and the operations on words that
instructions compute (R120, R125 to R131). Immediate and direct operands are the argument itself. -/

namespace Sys2Proof.Machine

/-- Indirect: the pointer word at `a`, checked as an address in its signed reading (R114, R115, D8). -/
def indirectAddress (t : State) (a : Address) : Except Fault Address := do
  let p ← memRead t a
  coerceToAddress (sval p)

/-- Register-relative: `sval(base) + d`, summed on integers and checked (R110 (d), R116 to R119). -/
def relativeAddress (base : Word) (d : Address) : Except Fault Address :=
  coerceToAddress (sval base + d.toNat)

/-- The one arithmetic operation (R120). -/
def addWords (a b : Word) : Word := coerceToValue (sval a + sval b)

/-- RAR's rotation by one bit within the word: bit 0 to bit 23 (R130, D11). -/
def rotateRightOne (w : Word) : Word := w.rotateRight 1

/-- A load's effect: ACC takes the word of cell `ea` (R110 (a)). -/
def loadAcc (t : State) (ea : Address) : Except Fault State := do
  let m ← memRead t ea
  pure (t.setAcc m)

/-- A store's effect: cell `ea` takes ACC (R110 (a)). -/
def storeAcc (t : State) (ea : Address) : State := memWrite t ea t.acc

/-- ACC combined with the word of cell `a` (R126 to R128, R131). -/
def accWithMemory (f : Word → Word → Word) (t : State) (a : Address) : Except Fault State := do
  let m ← memRead t a
  pure (t.setAcc (f t.acc m))

/-- An addition and its two shadows (R121, R122, D7): X the old ACC, Y the other operand. -/
def addToAcc (t : State) (m : Word) : State :=
  ((t.setX t.acc).setY m).setAcc (addWords t.acc m)

end Sys2Proof.Machine
end

