-- ==== Sys2Proof/Machine/Arithmetic.lean ====
section
/-! DEFINITION. Arithmetic (42_arithmetic.md R120 to R123). -/

namespace Sys2Proof.Machine

/-- ADD a (R121). -/
def execAdd (a : Address) (s : State) : Host.Outcome State Fault Refusal :=
  execute (fun t => memRead t a >>= fun m => .ok (addToAcc t m)) s

/-- ADC c (R122): the constant is zero-extended (D4). -/
def execAdc (c : Address) (s : State) : Host.Outcome State Fault Refusal :=
  execute (fun t => .ok (addToAcc t (zextWord c))) s

end Sys2Proof.Machine
end

