-- ==== Sys2Proof/Machine/Flags.lean ====
section
/-! DEFINITION. The machine has no flags, condition codes or status register (10_state.md R31). This file
holds the two conditions instructions compute instead: JMN's sign test and EQL's result word. -/

namespace Sys2Proof.Machine

/-- Bit 23 is set: the word is negative in the signed reading (R137, D23). -/
def isNegative (w : Word) : Bool := w.getLsbD 23

/-- EQL's result: all ones where all 24 bits agree, else 0 (R131, D23). -/
def equalWord (a b : Word) : Word := if a = b then 0xFFFFFF else 0

end Sys2Proof.Machine
end

