-- ==== Sys2Proof/Machine/Bitwise.lean ====
section
/-! DEFINITION. Bitwise operations, rotation, comparison (43_bitwise_compare.md R125 to R131). None writes
the shadows (R125 (c), D7). -/

namespace Sys2Proof.Machine

/-- AND a (R126). -/
def execAnd (a : Address) (s : State) : Host.Outcome State Fault Refusal :=
  execute (fun t => accWithMemory (fun u m => u &&& m) t a) s

/-- OR a (R127). -/
def execOr (a : Address) (s : State) : Host.Outcome State Fault Refusal :=
  execute (fun t => accWithMemory (fun u m => u ||| m) t a) s

/-- XOR a (R128). -/
def execXor (a : Address) (s : State) : Host.Outcome State Fault Refusal :=
  execute (fun t => accWithMemory (fun u m => u ^^^ m) t a) s

/-- NOT (R129). -/
def execNot (s : State) : Host.Outcome State Fault Refusal :=
  execute (fun t => .ok (t.setAcc (~~~t.acc))) s

/-- RAR (R130). -/
def execRar (s : State) : Host.Outcome State Fault Refusal :=
  execute (fun t => .ok (t.setAcc (rotateRightOne t.acc))) s

/-- EQL a (R131). -/
def execEql (a : Address) (s : State) : Host.Outcome State Fault Refusal :=
  execute (fun t => accWithMemory equalWord t a) s

end Sys2Proof.Machine
end

