-- ==== Sys2Proof/Machine/ControlFlow.lean ====
section
/-! DEFINITION. Control flow (44_control_flow.md R135 to R140) and HALT (46_halt.md R151 to R154). The body
sees IP already at the following word (R135 (a)). The argument of JMP, JMN and CALL is always in domain, so
their `coerceToAddress` is the argument itself (R135 (c)). -/

namespace Sys2Proof.Machine

/-- JMP a (R136). -/
def execJmp (a : Address) (s : State) : Host.Outcome State Fault Refusal :=
  execute (fun t => .ok (t.setIp a)) s

/-- JMN a (R137): taken where ACC is negative. -/
def execJmn (a : Address) (s : State) : Host.Outcome State Fault Refusal :=
  execute (fun t => .ok (if isNegative t.acc then t.setIp a else t)) s

/-- CALL a (R138): RA takes the address of the word after the CALL (D10). -/
def execCall (a : Address) (s : State) : Host.Outcome State Fault Refusal :=
  execute (fun t => .ok ((t.setRa (zextWord t.ip)).setIp a)) s

/-- RET (R139): RA is checked when it is used (D9). -/
def execRet (s : State) : Host.Outcome State Fault Refusal :=
  execute (fun t => coerceToAddress (sval t.ra) >>= fun target => .ok (t.setIp target)) s

/-- HALT (R95, R151): stage 3 ends the step before stage 4, whatever IP is; nothing is committed and the
table's transition is never applied (R152). -/
def execHalt (_s : State) : Host.Outcome State Fault Refusal := raise .programHalt

end Sys2Proof.Machine
end

