-- ==== Sys2Proof/Machine/LoadStore.lean ====
section
/-! DEFINITION. Loads and stores (41_load_store.md R110 to R119). -/

namespace Sys2Proof.Machine

/-- LDC c (R111): the constant is zero-extended (D4). -/
def execLdc (c : Address) (s : State) : Host.Outcome State Fault Refusal :=
  execute (fun t => .ok (t.setAcc (zextWord c))) s

/-- LDV a (R112). -/
def execLdv (a : Address) (s : State) : Host.Outcome State Fault Refusal :=
  execute (fun t => loadAcc t a) s

/-- STV a (R113). -/
def execStv (a : Address) (s : State) : Host.Outcome State Fault Refusal :=
  execute (fun t => .ok (storeAcc t a)) s

/-- LDIV a (R114): pointer read, pointer check, data read, in that order. -/
def execLdiv (a : Address) (s : State) : Host.Outcome State Fault Refusal :=
  execute (fun t => indirectAddress t a >>= fun ea => loadAcc t ea) s

/-- STIV a (R115): pointer read, pointer check, then the write. -/
def execStiv (a : Address) (s : State) : Host.Outcome State Fault Refusal :=
  execute (fun t => indirectAddress t a >>= fun ea => .ok (storeAcc t ea)) s

/-- LDRS d (R116). -/
def execLdrs (d : Address) (s : State) : Host.Outcome State Fault Refusal :=
  execute (fun t => relativeAddress t.sp d >>= fun ea => loadAcc t ea) s

/-- STRS d (R117). -/
def execStrs (d : Address) (s : State) : Host.Outcome State Fault Refusal :=
  execute (fun t => relativeAddress t.sp d >>= fun ea => .ok (storeAcc t ea)) s

/-- LDRF d (R118). -/
def execLdrf (d : Address) (s : State) : Host.Outcome State Fault Refusal :=
  execute (fun t => relativeAddress t.fp d >>= fun ea => loadAcc t ea) s

/-- STRF d (R119). -/
def execStrf (d : Address) (s : State) : Host.Outcome State Fault Refusal :=
  execute (fun t => relativeAddress t.fp d >>= fun ea => .ok (storeAcc t ea)) s

end Sys2Proof.Machine
end

