-- ==== Sys2Proof/Machine/RegisterTransfer.lean ====
section
/-! DEFINITION. Register transfers (45_register_transfer.md R143 to R149): all 24 bits, no check (D9). -/

namespace Sys2Proof.Machine

/-- LDSP (R144). -/
def execLdsp (s : State) : Host.Outcome State Fault Refusal :=
  execute (fun t => .ok (t.setAcc t.sp)) s

/-- STSP (R145). -/
def execStsp (s : State) : Host.Outcome State Fault Refusal :=
  execute (fun t => .ok (t.setSp t.acc)) s

/-- LDFP (R146). -/
def execLdfp (s : State) : Host.Outcome State Fault Refusal :=
  execute (fun t => .ok (t.setAcc t.fp)) s

/-- STFP (R147). -/
def execStfp (s : State) : Host.Outcome State Fault Refusal :=
  execute (fun t => .ok (t.setFp t.acc)) s

/-- LDRA (R148). -/
def execLdra (s : State) : Host.Outcome State Fault Refusal :=
  execute (fun t => .ok (t.setAcc t.ra)) s

/-- STRA (R149). -/
def execStra (s : State) : Host.Outcome State Fault Refusal :=
  execute (fun t => .ok (t.setRa t.acc)) s

end Sys2Proof.Machine
end

