-- ==== Sys2Proof/Machine/Dispatch.lean ====
section
/-! DEFINITION. One arm per instruction: stages 3 to 5 and commit (40_step_cycle.md R95 to R99). -/

namespace Sys2Proof.Machine

/-- What an instruction does to the working state stage 1 left (IR already holds its word). -/
def exec (i : Instr) (s : State) : Host.Outcome State Fault Refusal :=
  match i with
  | .ldc c => Sys2Proof.Machine.execLdc c s
  | .ldv a => Sys2Proof.Machine.execLdv a s
  | .stv a => Sys2Proof.Machine.execStv a s
  | .add a => Sys2Proof.Machine.execAdd a s
  | .and a => Sys2Proof.Machine.execAnd a s
  | .or a => Sys2Proof.Machine.execOr a s
  | .xor a => Sys2Proof.Machine.execXor a s
  | .eql a => Sys2Proof.Machine.execEql a s
  | .jmp a => Sys2Proof.Machine.execJmp a s
  | .jmn a => Sys2Proof.Machine.execJmn a s
  | .ldiv a => Sys2Proof.Machine.execLdiv a s
  | .stiv a => Sys2Proof.Machine.execStiv a s
  | .call a => Sys2Proof.Machine.execCall a s
  | .adc c => Sys2Proof.Machine.execAdc c s
  | .halt => Sys2Proof.Machine.execHalt s
  | .not => Sys2Proof.Machine.execNot s
  | .rar => Sys2Proof.Machine.execRar s
  | .ret => Sys2Proof.Machine.execRet s
  | .ldra => Sys2Proof.Machine.execLdra s
  | .stra => Sys2Proof.Machine.execStra s
  | .ldsp => Sys2Proof.Machine.execLdsp s
  | .stsp => Sys2Proof.Machine.execStsp s
  | .ldfp => Sys2Proof.Machine.execLdfp s
  | .stfp => Sys2Proof.Machine.execStfp s
  | .ldrs d => Sys2Proof.Machine.execLdrs d s
  | .strs d => Sys2Proof.Machine.execStrs d s
  | .ldrf d => Sys2Proof.Machine.execLdrf d s
  | .strf d => Sys2Proof.Machine.execStrf d s

end Sys2Proof.Machine
end

