-- ==== Sys2Proof/Machine/Step.lean ====
section
/-! DEFINITION. The step (40_step_cycle.md R90 to R98): stages 1 and 2, then the instruction. -/

namespace Sys2Proof.Machine

/-- `Step` (R90). A failure of any stage commits nothing (R99). -/
def step (s : State) : Host.Outcome State Fault Refusal :=
  match fetchAndDecode s with
  | .ok (i, t) => exec i t
  | .error e => raise e

/-- `s` with the one word whose low `nbits` bits are those of `w` (numbered as spec/opcode_table.json
numbers them, the rest 0) in the cell at IP, where the next step fetches. It stands for the host's load
(R184; log 19). -/
def State.withFetchWord (s : State) (nbits w : Nat) : State :=
  memWrite s s.ip (BitVec.ofNat 24 (w % 2 ^ nbits))

end Sys2Proof.Machine
end

