-- ==== Sys2Proof/Machine/HostInterface.lean ====
section
/-! DEFINITION. What the host can do to the engine and gets back (70_reset_and_hazards.md R180 to R188;
60_exceptions.md R166). None of it is an instruction, and none of it is state of the machine. -/

namespace Sys2Proof.Machine

/-- A program image: the cells to set and their words, in the order they are set (R83, R184). -/
abbrev Image := List (Address × Word)

/-- Loading (R184): cell `address` becomes `word`, entry after entry. -/
def loadImage (image : Image) (s : State) : State :=
  image.foldl (fun t entry => memWrite t entry.1 entry.2) s

/-- Reset with an image (R38, R182): all registers 0, the image's cells set, every other cell unset. -/
def boot (image : Image) : State := loadImage image State.reset

/-- Why a state built from outside data is refused before any step (R39, D25, U20). -/
inductive SupplyRefusal where
  /-- An IP outside the address domain. -/
  | ipOutside (v : Int)
  /-- A cell address outside the address domain. -/
  | cellAddressOutside (v : Int)
  /-- A register or cell value that is no 24-bit word. -/
  | wideValue (v : Int)
  deriving DecidableEq, Repr

/-- The outside data of a state: every register and the cells to set, in order (R186). -/
structure Supplied where
  ip    : Int
  acc   : Int
  x     : Int
  y     : Int
  ir    : Int
  ra    : Int
  sp    : Int
  fp    : Int
  cells : List (Int × Int)
  deriving DecidableEq, Repr

/-- A supplied register or cell value: the integer is either reading of a 24-bit word (R7), reduced with
`coerceToValue` (R39), or it is refused (D25; log 24, log 32). -/
def suppliedWord (v : Int) : Except SupplyRefusal Word :=
  if Config.valueMin ≤ v ∧ v ≤ 0xFFFFFF then .ok (coerceToValue v) else .error (.wideValue v)

/-- A supplied IP or cell address, under the refusal's own name (R39, D25). -/
def suppliedAddress (refusal : Int → SupplyRefusal) (v : Int) : Except SupplyRefusal Address :=
  match coerceToAddress v with
  | .ok a => .ok a
  | .error _ => .error (refusal v)

/-- A supplied cell, as an image entry (R39; log 32). -/
def suppliedCell (c : Int × Int) : Except SupplyRefusal (Address × Word) := do
  let a ← suppliedAddress .cellAddressOutside c.1
  let w ← suppliedWord c.2
  pure (a, w)

/-- A state built from outside data (R39, R186), or its refusal (D25, U20; log 24). Exactly the supplied cells
are set; a repeated address keeps its last value, a DESIGN CHOICE (log 32). -/
def supplyState (d : Supplied) : Except SupplyRefusal State := do
  let ip ← suppliedAddress .ipOutside d.ip
  let acc ← suppliedWord d.acc
  let x ← suppliedWord d.x
  let y ← suppliedWord d.y
  let ir ← suppliedWord d.ir
  let ra ← suppliedWord d.ra
  let sp ← suppliedWord d.sp
  let fp ← suppliedWord d.fp
  let image ← d.cells.mapM suppliedCell
  pure (loadImage image
    { acc := acc, x := x, y := y, ir := ir, ip := ip, ra := ra, sp := sp, fp := fp, mem := [] })

/-- A host reads a cell of the committed state: set or unset, and its word (R188). -/
def readCell (s : State) (a : Address) : Option Word := Memory.read s.mem a.toNat

/-- `Step` as the host requests it (R90, R91): the outcome together with the new committed state, which is
the old one unless the outcome is `Stepped` (R99, R170). -/
def requestStep (s : State) : Host.Outcome State Fault Refusal × State :=
  match step s with
  | .next t => (.next t, t)
  | .fault e => (.fault e, s)
  | .refused r => (.refused r, s)

/-- The state of a `Stepped` outcome. -/
def steppedState (o : Host.Outcome State Fault Refusal) : Option State :=
  match o with
  | .next t => some t
  | .fault _ => none
  | .refused _ => none

/-- The reason of a `Halted` or `Failed` outcome. -/
def stopReason (o : Host.Outcome State Fault Refusal) : Option Fault :=
  match o with
  | .next _ => none
  | .fault e => some e
  | .refused _ => none

/-- The optional numbering of outcomes (R166); nothing depends on it. -/
def causeCode (o : Host.Outcome State Fault Refusal) : Option Nat :=
  match o with
  | .next _ => some 0
  | .fault .programHalt => some 1
  | .fault (.uninitializedMemory _) => some 2
  | .fault (.overflow _) => some 3
  | .fault (.instructionNotFound _) => some 4
  | .refused _ => none

/-- The probe (R153, R194): would the next step halt? -/
def isFinished (s : State) : Bool := stopReason (step s) == some .programHalt

/-- One engine in the host's hands: the state it was given and its committed state (R180, R186). -/
structure Engine where
  initial : State
  current : State
  deriving DecidableEq, Repr

/-- An engine started on a state. -/
def Engine.start (s : State) : Engine := { initial := s, current := s }

/-- `reset()` (R180): total; nothing of the run survives. -/
def Engine.reset (e : Engine) : Engine := Engine.start e.initial

/-- One step request (R90). -/
def Engine.step (e : Engine) : Engine := { e with current := (requestStep e.current).2 }

end Sys2Proof.Machine
end

