-- ==== Sys2Proof/Machine/Assembler.lean ====
section
/-! DEFINITION. The assembler's input language and output image (30_encoding.md R76 to R84). It is host
software (00_scope.md R4 (a)); its lexical details are the spec's own (D21) and what they leave open is
log 27 and log 31. Program text is a list of characters. -/

namespace Sys2Proof.Machine

/-- Why text does not assemble at all (R76, R81, R165). -/
inductive AssemblerError where
  /-- A line of no form of R76. -/
  | syntaxError
  /-- An unknown mnemonic (R81). -/
  | notFound
  /-- A required argument is missing (R81). -/
  | malformedArgument
  /-- A value after an argument-less mnemonic, which the spec leaves out of the language (R81, U9). -/
  | argumentNotTaken
  deriving DecidableEq, Repr

/-- A collected problem of a line (R79, R80). -/
inductive Diagnostic where
  | argumentRange
  | dataRange
  | unknownLabel
  /-- An instruction or a value stands on a line whose address is outside the address space. A DESIGN CHOICE
  (log 27). -/
  | addressRange
  /-- Only a warning: the first declaration is used (R79, C11). -/
  | duplicateLabel
  deriving DecidableEq, Repr

/-- An instruction's written argument (R76). -/
inductive SourceArgument where
  | literal (v : Int)
  | label (name : List Char)
  deriving DecidableEq, Repr

/-- What a line emits (R76). -/
inductive SourceItem where
  | instruction (mnemonic : List Char) (argument : Option SourceArgument)
  | value (v : Int)
  deriving DecidableEq, Repr

/-- A line that takes an address (R78): a label, an item, or both. -/
structure SourceLine where
  label : Option (List Char)
  item  : Option SourceItem
  deriving DecidableEq, Repr

/-- A blank, which separates tokens (R77). R77 does not list the blanks: space and tab alone, so that a
carriage return is part of a token, is the model's DESIGN CHOICE (log 31). -/
def isBlank (c : Char) : Bool := c == ' ' || c == '\t'

/-- The pieces of `cs` between the characters that `separates` picks, empty ones too; `piece` is what has
been read of the current one, last character first. -/
def splitOnChar (separates : Char → Bool) : List Char → List Char → List (List Char)
  | [], piece => [piece.reverse]
  | c :: cs, piece =>
    if separates c then piece.reverse :: splitOnChar separates cs []
    else splitOnChar separates cs (c :: piece)

/-- The lines of a program text (R76). The line feed as the one line end is the model's DESIGN CHOICE
(log 31). -/
def sourceLines (text : List Char) : List (List Char) := splitOnChar (fun c => c == '\n') text []

/-- The tokens of a line (R77). -/
def tokensOf (line : List Char) : List (List Char) :=
  (splitOnChar isBlank line []).filter fun t => !t.isEmpty

/-- A label name: a letter or `_`, then letters, digits or `_` (R77). -/
def isName : List Char → Bool
  | [] => false
  | c :: cs => (c.isAlpha || c == '_') && cs.all fun d => d.isAlphanum || d == '_'

/-- A token of the form of a mnemonic: 1 to 5 letters (R76). -/
def isMnemonicForm (t : List Char) : Bool := !t.isEmpty && t.length ≤ 5 && t.all Char.isAlpha

/-- The number a token of decimal digits stands for (R77). -/
def digitsValue (t : List Char) : Option Nat :=
  if !t.isEmpty && t.all Char.isDigit then
    some (t.foldl (fun n c => 10 * n + (c.toNat - 48)) 0)
  else none

/-- An integer literal: decimal, with an optional leading minus (R77). -/
def literalValue : List Char → Option Int
  | '-' :: t => (digitsValue t).map fun n => -(n : Int)
  | t => (digitsValue t).map fun n => (n : Int)

/-- An instruction's argument token (R76). -/
def parseArgument (t : List Char) : Except AssemblerError SourceArgument :=
  match literalValue t with
  | some v => .ok (.literal v)
  | none => if isName t then .ok (.label t) else .error .syntaxError

/-- What follows the optional label of a line (R76). -/
def parseItem (tokens : List (List Char)) : Except AssemblerError (Option SourceItem) :=
  match tokens with
  | [] => .ok none
  | [t] =>
    if isMnemonicForm t then .ok (some (.instruction t none))
    else
      match literalValue t with
      | some v => .ok (some (.value v))
      | none => .error .syntaxError
  | [t, u] =>
    if isMnemonicForm t then (parseArgument u).map fun arg => some (.instruction t (some arg))
    else .error .syntaxError
  | _ => .error .syntaxError

/-- The name a label declaration token declares: `name:` (R76). The grammar does not say whether blanks may
stand around the colon: one token `name:`, no blank before the colon and one before an item, is the model's
DESIGN CHOICE (log 31). -/
def declaredName (t : List Char) : Option (List Char) :=
  match t.reverse with
  | ':' :: n => if isName n.reverse then some n.reverse else none
  | _ => none

/-- One line (R76): `none` for a comment or a blank line, which take no address. -/
def parseLine (line : List Char) : Except AssemblerError (Option SourceLine) :=
  match tokensOf line with
  | [] => .ok none
  | (';' :: _) :: _ => .ok none
  | t :: rest =>
    match declaredName t with
    | some n => (parseItem rest).map fun item => some { label := some n, item := item }
    | none => (parseItem (t :: rest)).map fun item => some { label := none, item := item }

/-- All lines that take an address, in order (R78). -/
def parseProgram (text : List Char) : Except AssemblerError (List SourceLine) := do
  let parsed ← (sourceLines text).mapM parseLine
  pure (parsed.filterMap id)

/-- The declarations with their addresses, in order (R78, R79). -/
def declarations : Nat → List SourceLine → List (List Char × Nat)
  | _, [] => []
  | address, l :: ls =>
    match l.label with
    | some n => (n, address) :: declarations (address + 1) ls
    | none => declarations (address + 1) ls

/-- A label's address: its first declaration's (R79). R79 does not say whether the case of letters counts:
comparing label names exactly is the model's DESIGN CHOICE (log 31). -/
def labelAddress (decls : List (List Char × Nat)) (name : List Char) : Option Nat :=
  (decls.find? fun d => d.1 == name).map fun d => d.2

/-- One warning for each repeated declaration (R79), names compared exactly (log 31). -/
def duplicateLabels : List (List Char × Nat) → List Diagnostic
  | [] => []
  | d :: ds =>
    (if ds.any fun e => e.1 == d.1 then [.duplicateLabel] else []) ++ duplicateLabels ds

/-- The table's row of a mnemonic, without regard to case (R81, R71 (e)). -/
def rowOfMnemonic (name : List Char) : Option TableRow :=
  instructionTable.find? fun r => r.mnemonic.toList == name.map Char.toUpper

/-- The number an argument stands for, inside the address domain (R79, R80). -/
def argumentValue (decls : List (List Char × Nat)) (arg : SourceArgument) : Except Diagnostic Nat :=
  match arg with
  | .literal v => if 0 ≤ v ∧ v ≤ 0xFFFFF then .ok v.toNat else .error .argumentRange
  | .label n =>
    match labelAddress decls n with
    | some a => if a ≤ 0xFFFFF then .ok a else .error .argumentRange
    | none => .error .unknownLabel

/-- The word a line's item yields, or its diagnostic (R80 to R82). -/
def assembleItem (decls : List (List Char × Nat)) (item : SourceItem) :
    Except AssemblerError (Except Diagnostic Word) :=
  match item with
  | .value v =>
    .ok (if Config.valueMin ≤ v ∧ v ≤ Config.valueMax then .ok (coerceToValue v) else .error .dataRange)
  | .instruction name argument =>
    match rowOfMnemonic name with
    | none => .error .notFound
    | some row =>
      match row.hasArgument, argument with
      | true, some arg =>
        .ok ((argumentValue decls arg).map fun v => combineInstruction row.opcode v)
      | true, none => .error .malformedArgument
      | false, none => .ok (.ok (combineInstruction row.opcode 0))
      | false, some _ => .error .argumentNotTaken

/-- The entries and diagnostics of the lines from an address on (R78, R83). The spec does not say what a line
past 0xFFFFF gives: `addressRange` where it has an instruction or a value (with no diagnostic of its own), and
nothing where it has a label alone, since such a line emits nothing and leaves the image as it is, is the model's DESIGN CHOICE (log 27). -/
def assembleLines (decls : List (List Char × Nat)) :
    Nat → List SourceLine → Except AssemblerError (Image × List Diagnostic)
  | _, [] => .ok ([], [])
  | address, l :: ls => do
    let here ← match l.item with
      | none => pure ([], [])
      | some item => do
        let r ← assembleItem decls item
        match r with
        | .error d => pure ([], [d])
        | .ok w =>
          if address ≤ 0xFFFFF then pure ([(BitVec.ofNat 20 address, w)], [])
          else pure ([], [Diagnostic.addressRange])
    let later ← assembleLines decls (address + 1) ls
    pure (here.1 ++ later.1, here.2 ++ later.2)

/-- What assembling gives (R80, R83): no image where a diagnostic other than a duplicate label exists. -/
structure Assembly where
  image       : Option Image
  diagnostics : List Diagnostic
  deriving DecidableEq, Repr

/-- The assembler: text to image (R76 to R83). -/
def assemble (text : List Char) : Except AssemblerError Assembly := do
  let lines ← parseProgram text
  let decls := declarations 0 lines
  let out ← assembleLines decls 0 lines
  pure
    { image := if out.2.isEmpty then some out.1 else none
      diagnostics := out.2 ++ duplicateLabels decls }

end Sys2Proof.Machine
end

