-- ==== Sys2Proof/Machine/History.lean ====
section
/-! DEFINITION. The host's HistoryController, as far as its contract goes (70_reset_and_hazards.md R190 to
R195). It is host software, outside the machine (00_scope.md R4 (b)): no instruction can observe it. -/

namespace Sys2Proof.Machine

/-- An engine, the buffered snapshots (oldest first, the last one the newest computed), and the view cursor
(R190). The buffer starts with the initial state (log 25). -/
structure History where
  engine   : Engine
  buffer   : List State
  view     : Nat
  capacity : Nat
  deriving DecidableEq, Repr

/-- A history around a fresh engine, of the default capacity unless told otherwise (R190). -/
def History.start (s : State) (capacity : Nat := Config.historyCapacity) : History :=
  { engine := Engine.start s, buffer := [s], view := 0, capacity := capacity }

/-- The displayed state. -/
def History.current (h : History) : State := (h.buffer[h.view]?).getD h.engine.current

/-- Appends the newest snapshot, evicting the oldest where the buffer is full (R191, U18). -/
def History.append (h : History) (s : State) : List State :=
  (h.buffer ++ [s]).drop (h.buffer.length + 1 - h.capacity)

/-- `nextStep()` (R191): replay where a successor is buffered, else one engine step; a step that halts or
fails appends nothing. -/
def History.nextStep (h : History) : Host.Outcome History Fault Refusal :=
  if h.view + 1 < h.buffer.length then .next { h with view := h.view + 1 }
  else
    match Machine.step h.engine.current with
    | .next s => .next { h with
        engine := { h.engine with current := s }
        buffer := h.append s
        view := (h.append s).length - 1 }
    | .fault e => .fault e
    | .refused r => .refused r

/-- `previousStep()` (R192): at the oldest retained snapshot it changes nothing. -/
def History.previousStep (h : History) : History := { h with view := h.view - 1 }

/-- `isFinished()` (R194): of the next step that is not buffered. -/
def History.isFinished (h : History) : Bool := Machine.isFinished h.engine.current

/-- `reset()` (R180, R195): the initial state, and no history. -/
def History.reset (h : History) : History := History.start h.engine.initial h.capacity

end Sys2Proof.Machine
end

