-- ==== Sys2Proof/Safety.lean ====
section
/-! DEFINITION. The invariant (10_state.md R39), what a run is and how it ends (46_halt.md R154), and the
classes of instructions the claims name (10_state.md R22, R29; 20_memory.md R54; 60_exceptions.md R167). -/

namespace Sys2Proof

/-- A store instruction: it ends with one memory write (R54). -/
def Instr.stores : Instr → Bool
  | .stv _ | .stiv _ | .strs _ | .strf _ => true
  | _ => false

/-- The instruction's body writes ACC (R22, R29). -/
def Instr.writesAcc : Instr → Bool
  | .ldc _ | .ldv _ | .ldiv _ | .ldrs _ | .ldrf _ | .add _ | .adc _ => true
  | .and _ | .or _ | .xor _ | .not | .rar | .eql _ | .ldsp | .ldfp | .ldra => true
  | _ => false

/-- The instruction's body reads ACC (R22, R29). -/
def Instr.readsAcc : Instr → Bool
  | .stv _ | .stiv _ | .strs _ | .strf _ | .add _ | .adc _ => true
  | .and _ | .or _ | .xor _ | .not | .rar | .eql _ | .jmn _ | .stsp | .stfp | .stra => true
  | _ => false

/-- The body reads memory, so it can meet an unset cell (R54, R161). -/
def Instr.readsMemory : Instr → Bool
  | .ldv _ | .add _ | .and _ | .or _ | .xor _ | .eql _ => true
  | .ldiv _ | .stiv _ | .ldrs _ | .ldrf _ => true
  | _ => false

/-- The body passes a computed value through `coerceToAddress`, so it can overflow (R162, R167). -/
def Instr.checksAddress : Instr → Bool
  | .ldiv _ | .stiv _ | .ldrs _ | .strs _ | .ldrf _ | .strf _ | .ret => true
  | _ => false

/-- The body writes X and Y (R23, D7). -/
def Instr.writesShadows : Instr → Bool
  | .add _ | .adc _ => true
  | _ => false

namespace Machine

/-- The state invariant (R39). The widths of registers and words are carried by their types; what is left
is the memory's form: canonical, and no address outside the space. -/
abbrev State.Inv (s : State) : Prop := Memory.wf s.mem

/-- What stage 4 leaves for the body, where IP is not the last address (R96). -/
def State.advanced (s : State) : State := { s with ip := s.ip + 1, x := 0, y := 0 }

/-- The cells whose being unset the body of `i` can report, as R167 lists them: the argument, the pointer,
base plus displacement. -/
def bodyReads (i : Instr) (s : State) (a : Address) : Prop :=
  match i with
  | .ldv c | .add c | .and c | .or c | .xor c | .eql c | .stiv c => a = c
  | .ldiv c => a = c ∨ ∃ p, Memory.read s.mem c.toNat = some p ∧ sval p = a.toNat
  | .ldrs d => (a.toNat : Int) = sval s.sp + d.toNat
  | .ldrf d => (a.toNat : Int) = sval s.fp + d.toNat
  | _ => False

/-- The values the body of `i` passes through `coerceToAddress`, as R167 lists them: the pointer word, base
plus displacement, RA. -/
def bodyChecks (i : Instr) (s : State) (v : Int) : Prop :=
  match i with
  | .ldiv c | .stiv c => ∃ p, Memory.read s.mem c.toNat = some p ∧ v = sval p
  | .ldrs d | .strs d => v = sval s.sp + d.toNat
  | .ldrf d | .strf d => v = sval s.fp + d.toNat
  | .ret => v = sval s.ra
  | _ => False

/-- The address a store instruction stores to, computed as its meaning computes it, on what stage 4 left;
`none` for any other instruction, and where the address fails (R54). -/
def storeAddress (i : Instr) (s : State) : Option Address :=
  match i with
  | .stv a => some a
  | .stiv a => (indirectAddress s.advanced a).toOption
  | .strs d => (relativeAddress s.sp d).toOption
  | .strf d => (relativeAddress s.fp d).toOption
  | _ => none

/-- What a store to cell `ea` leaves (R42, R110 (a)): that cell holds ACC, every other cell and every
register is as before, but for what stage 4 wrote (R96). -/
structure StoreEffect (s t : State) (ea : Address) : Prop where
  stored : Memory.read t.mem ea.toNat = some s.acc
  others : ∀ b, b ≠ ea.toNat → Memory.read t.mem b = Memory.read s.mem b
  acc : t.acc = s.acc
  x : t.x = 0
  y : t.y = 0
  ir : t.ir = s.ir
  ip : t.ip = s.ip + 1
  ra : t.ra = s.ra
  sp : t.sp = s.sp
  fp : t.fp = s.fp

/-- `t` is reached from `s` by zero or more `Stepped` outcomes (R154). -/
inductive Steps : State → State → Prop where
  | refl (s : State) : Steps s s
  | tail {s t u : State} : Steps s t → step t = .next u → Steps s u

/-- A run from `s` ends normally in `t` (R154). -/
def EndsNormally (s t : State) : Prop := Steps s t ∧ step t = .fault .programHalt

/-- A run from `s` ends in failure `e`, with `t` the last committed state (R154). -/
def EndsInFailure (s t : State) (e : Fault) : Prop :=
  Steps s t ∧ step t = .fault e ∧ e ≠ .programHalt

/-- A safe run from `s`: no state it reaches ends it in a failure. -/
def SafeRun (s : State) : Prop := ∀ t e, ¬ EndsInFailure s t e

end Machine

end Sys2Proof
end

