-- ==== Sys2Proof/Certificates/Slice0/Obligations.lean ====
section
/-! DEFINITION. The statements for the provers. A docstring names the rule of spec/ a statement formalises;
where that rule rests on a decision of the spec's own (92_eei_decisions.md), it names the decision and the
entry of the assumption log. -/

open Sys2Proof Sys2Proof.Machine

/-! ### Encoding -/

/-- 30_encoding.md R67: every well-formed instruction is what its word decodes to, at every argument its
encoding admits. Rests on D3 (log 6): format-L arguments have 16 bits. -/
def Obligations.EncodeThenDecodeGivesInstruction : Prop :=
  ∀ i : Instr, i.wellFormed = true → decode (encode i) = .ok i

/-- The other direction (R64 to R66, R68): a word that decodes is the encoding of its instruction, but for
the 16 bits an argument-less instruction ignores. Rests on D1 and D12 (log 6, log 15). -/
def Obligations.DecodeThenEncodeGivesWord : Prop :=
  ∀ (w : Word) (i : Instr), decode w = .ok i →
    i.wellFormed = true ∧
    (∀ a, argumentOf i = some a → encode i = w) ∧
    (argumentOf i = none → encode i = w &&& 0xFF0000#24)

/-- R64, R65, R66 on integers: extraction inverts assembly up to the masks of the argument field. Rests on
D1 (log 6): large opcodes are 0xF0 to 0xFF. -/
def Obligations.CombineThenExtractRecoversFields : Prop :=
  ∀ opcode argument : Nat,
    (opcode ≤ 0xE →
      extractOpcode (combineInstruction opcode argument) = opcode ∧
      (extractArgument (combineInstruction opcode argument)).toNat = argument % 2 ^ 20) ∧
    (0xF0 ≤ opcode → opcode ≤ 0xFF →
      extractOpcode (combineInstruction opcode argument) = opcode ∧
      (extractArgument (combineInstruction opcode argument)).toNat = argument % 2 ^ 16)

/-- R73: exactly the words of opcodes 0xE, 0xFE and 0xFF are no instructions, each rejected with its opcode.
Rests on D22 and D2 (log 20, log 6). -/
def Obligations.OnlyUnassignedOpcodesAreNotFound : Prop :=
  ∀ (w : Word) (n : Nat), decode w = .error (.instructionNotFound n) ↔
    (n = 14 ∧ w.extractLsb' 20 4 = 0xE#4) ∨
    (n = 254 ∧ w.extractLsb' 16 8 = 0xFE#8) ∨
    (n = 255 ∧ w.extractLsb' 16 8 = 0xFF#8)

/-- R68: an argument-less instruction is the same at every value of its 16 argument bits. Rests on D12
(log 15). -/
def Obligations.ArgumentBitsIgnoredWhereNoArgument : Prop :=
  ∀ z : BitVec 16,
    decode (0xF0#8 ++ z : Word) = .ok .halt ∧ decode (0xF1#8 ++ z : Word) = .ok .not ∧
    decode (0xF2#8 ++ z : Word) = .ok .rar ∧ decode (0xF3#8 ++ z : Word) = .ok .ret ∧
    decode (0xF4#8 ++ z : Word) = .ok .ldra ∧ decode (0xF5#8 ++ z : Word) = .ok .stra ∧
    decode (0xF6#8 ++ z : Word) = .ok .ldsp ∧ decode (0xF7#8 ++ z : Word) = .ok .stsp ∧
    decode (0xF8#8 ++ z : Word) = .ok .ldfp ∧ decode (0xF9#8 ++ z : Word) = .ok .stfp

/-- R75, the disassembly contract: a word is known exactly when its opcode is in the table, that is, unless
R73 applies; the argument never affects the answer. -/
def Obligations.KnownInstructionDependsOnOpcodeAlone : Prop :=
  ∀ w : Word,
    (knownInstruction w = true ↔ ∃ r ∈ instructionTable, r.opcode = extractOpcode w) ∧
    (knownInstruction w = true ↔
      ¬ (w.extractLsb' 20 4 = 0xE#4 ∨ w.extractLsb' 16 8 = 0xFE#8 ∨ w.extractLsb' 16 8 = 0xFF#8)) ∧
    (knownInstruction w = true ↔ ∃ i, decode w = .ok i) ∧
    ∀ w' : Word, extractOpcode w' = extractOpcode w → knownInstruction w' = knownInstruction w

/-- Words written out from R70, one of each family at least. Rests on the opcode numbers of D2 (log 6). -/
def Obligations.WordsOfEachFamilyDecode : Prop :=
  decode 0x0FFFFF#24 = .ok (.ldc 0xFFFFF#20) ∧ decode 0xA00020#24 = .ok (.ldiv 0x20#20) ∧
  decode 0x300014#24 = .ok (.add 0x14#20) ∧ decode 0xDFFFFF#24 = .ok (.adc 0xFFFFF#20) ∧
  decode 0x7ABCDE#24 = .ok (.eql 0xABCDE#20) ∧ decode 0xF2ABCD#24 = .ok .rar ∧
  decode 0x800005#24 = .ok (.jmp 5#20) ∧ decode 0xF30000#24 = .ok .ret ∧
  decode 0xF70000#24 = .ok .stsp ∧ decode 0xFA1234#24 = .ok (.ldrs 0x1234#20) ∧
  decode 0xF0FFFF#24 = .ok .halt ∧ decode 0xFFFFFF#24 = .error (.instructionNotFound 255)

/-! ### The step -/

/-- R92 to R97: where the cell at IP holds a word that decodes to `i`, the step is `i` on the state whose IR
holds that word. Stage 4 and the commit are inside `exec` (log 5). -/
def Obligations.StepRunsDecodedInstruction : Prop :=
  ∀ (s : State) (w : Word) (i : Instr),
    Memory.read s.mem s.ip.toNat = some w → decode w = .ok i → step s = exec i { s with ir := w }

/-- R92, stage 1: the word at IP goes to IR; an unset cell fails the step. -/
def Obligations.FetchReadsCellAtIpIntoIr : Prop :=
  ∀ s : State,
    (Memory.read s.mem s.ip.toNat = none → step s = .fault (.uninitializedMemory s.ip)) ∧
    (∀ w t, Memory.read s.mem s.ip.toNat = some w → step s = .next t → t.ir = w)

/-- R93 and R94, stage 2: the fetched word is split; an opcode the table lacks fails the step and leaves the
state, so every later request fails the same way; one it has selects its row's instruction with the extracted
argument. -/
def Obligations.TableResolvesFetchedWord : Prop :=
  ∀ (s : State) (w : Word), Memory.read s.mem s.ip.toNat = some w →
    ((∀ r ∈ instructionTable, r.opcode ≠ extractOpcode w) →
      requestStep s = (.fault (.instructionNotFound (extractOpcode w)), s)) ∧
    (∀ r ∈ instructionTable, r.opcode = extractOpcode w →
      step s = exec (r.build (extractArgument w)) { s with ir := w })

/-- R95 and R151: every word 0xF0xxxx at IP halts the step, wherever it lies, and the committed state stays
as it was, IR, X and Y included. -/
def Obligations.HaltWordHaltsAndCommitsNothing : Prop :=
  (∀ s : State, exec .halt s = .fault .programHalt) ∧
  ∀ (s : State) (w : Word), Memory.read s.mem s.ip.toNat = some w → w.extractLsb' 16 8 = 0xF0#8 →
    requestStep s = (.fault .programHalt, s)

/-- R164: `ProgramHalt` is raised when, and only when, the decoded instruction is HALT. -/
def Obligations.OnlyHaltRaisesProgramHalt : Prop :=
  ∀ s : State, step s = .fault .programHalt ↔
    ∃ w, Memory.read s.mem s.ip.toNat = some w ∧ decode w = .ok .halt

/-- R99, R100, R153, R170: an engine whose step does not answer `Stepped` keeps its committed state, and its
outcome, for any number of further requests. Rests on D14 (log 17). -/
def Obligations.StoppedEngineRepeatsForEver : Prop :=
  ∀ s : State, (∀ t, step s ≠ .next t) → ∀ n : Nat,
    (fun u => (requestStep u).2)^[n] s = s ∧
    (requestStep ((fun u => (requestStep u).2)^[n] s)).1 = step s

/-- R96 at the top of the address space: every instruction but HALT fails there with Overflow(2^20), jumps
included. Rests on D6 (log 9). -/
def Obligations.LastAddressOverflows : Prop :=
  ∀ (i : Instr) (s : State), i ≠ .halt → s.ip = 0xFFFFF#20 → exec i s = .fault (.overflow 0x100000)

/-- R167: which instruction can end in which failure, with what payload. A reported cell is unset and one of
those R167 lists for the instruction (the argument, LDIV's pointer, base plus displacement); a reported value
is outside the address domain and is 2^20 in stage 4, else what R167 lists (the pointer word, base plus
displacement, RA); no body answers InstructionNotFound; only HALT halts. Rests on D6, D8, D9 and D15 (log 9,
log 11, log 12, log 18). -/
def Obligations.FailuresOfEachInstruction : Prop :=
  ∀ (i : Instr) (s : State) (e : Fault), exec i s = .fault e →
    (e = .programHalt → i = .halt) ∧
    (∀ n, e ≠ .instructionNotFound n) ∧
    (∀ a, e = .uninitializedMemory a → s.ip ≠ 0xFFFFF#20 ∧
      Memory.read s.mem a.toNat = none ∧ i.readsMemory = true ∧ bodyReads i s a) ∧
    (∀ v, e = .overflow v → (v < 0 ∨ 2 ^ 20 ≤ v) ∧
      ((s.ip = 0xFFFFF#20 ∧ v = 2 ^ 20) ∨
       (s.ip ≠ 0xFFFFF#20 ∧ i.checksAddress = true ∧ bodyChecks i s v)))

/-- R160, R97: every step answers a next state or one of the named reasons; the model refuses nothing. -/
def Obligations.NoStepIsRefused : Prop :=
  ∀ (s : State) (q : Refusal), step s ≠ .refused q

/-! ### Memory -/

/-- 10_state.md R39 at reset. The canonical form it asks of memory is the model's own choice (log 1). -/
def Obligations.ResetMeetsMemoryInvariant : Prop := State.reset.Inv

/-- R39: every step preserves the invariant: memory stays canonical and inside the 2^20 cells. The canonical
form is the model's own (log 1). -/
def Obligations.StepKeepsMemoryInvariant : Prop :=
  ∀ s t : State, s.Inv → step s = .next t → t.Inv

/-- R38, R39: every state a run reaches from any loaded image meets the invariant (log 1, log 19). -/
def Obligations.RunsFromLoadedImagesKeepInvariant : Prop :=
  ∀ (image : Image) (t : State), Steps (boot image) t → t.Inv

/-- 20_memory.md R42 and the frame of the storing instructions (R113, R115, R117, R119): the addressed cell
holds ACC; every other cell, set or unset, and every register but what stage 4 writes, is as before. The
address is the one the meaning computes, on the state stage 4 left. -/
def Obligations.StoresChangeOneCell : Prop :=
  ∀ s t : State,
    (∀ a, exec (.stv a) s = .next t → StoreEffect s t a) ∧
    (∀ a ea, indirectAddress s.advanced a = .ok ea → exec (.stiv a) s = .next t → StoreEffect s t ea) ∧
    (∀ d ea, relativeAddress s.sp d = .ok ea → exec (.strs d) s = .next t → StoreEffect s t ea) ∧
    (∀ d ea, relativeAddress s.fp d = .ok ea → exec (.strf d) s = .next t → StoreEffect s t ea)

/-- R54: an instruction that is no store leaves every cell, set or unset, as it was. -/
def Obligations.NonStoringInstructionsLeaveMemory : Prop :=
  ∀ (i : Instr) (s t : State), i.stores = false → exec i s = .next t →
    ∀ b, Memory.read t.mem b = Memory.read s.mem b

/-- R33: a step never unsets a cell, and it sets at most the cells a store instruction writes. -/
def Obligations.SetCellsStaySet : Prop :=
  ∀ (s t : State), step s = .next t → ∀ b,
    (∀ v, Memory.read s.mem b = some v → ∃ v', Memory.read t.mem b = some v') ∧
    (∀ v, Memory.read s.mem b = none → Memory.read t.mem b = some v →
      v = s.acc ∧ ∃ w i, Memory.read s.mem s.ip.toNat = some w ∧ decode w = .ok i ∧ i.stores = true)

/-- R48: storing the same word twice leaves the same memory, and re-reading the cell returns it. -/
def Obligations.StoringTwiceIsStoringOnce : Prop :=
  ∀ (s : State) (a : Address) (w : Word),
    memWrite (memWrite s a w) a w = memWrite s a w ∧ memRead (memWrite s a w) a = .ok w

/-- Two memories in canonical form that agree on every read are equal data (the model's form, log 1). -/
def Obligations.CanonicalMemoriesWithEqualReadsAreEqual : Prop :=
  ∀ m n : Memory, m.wf → n.wf → (∀ a, m.read a = n.read a) → m = n

/-- R53, R198, for every storing instruction: a fetch at the address stored to gives the stored word, and where
that address is the next instruction's, the very next step runs it. The address is the one the meaning
computes; for STIV, STRS and STRF it rests on D4, D8 and D9 (log 7, log 11, log 12). -/
def Obligations.StoredWordIsExecutedNext : Prop :=
  ∀ (s t : State) (w : Word) (j : Instr) (a : Address),
    Memory.read s.mem s.ip.toNat = some w → decode w = .ok j → storeAddress j s = some a →
    step s = .next t →
    fetch { t with ip := a } = .ok s.acc ∧
    (a = s.ip + 1 → ∀ i, decode s.acc = .ok i → step t = exec i { t with ir := s.acc })

/-! ### Registers, over all instructions -/

/-- R22, R29: ACC is written only by the instructions R22 lists as its writers, and influences nothing in
those R22 does not list as its readers. -/
def Obligations.AccumulatorReadersAndWriters : Prop :=
  (∀ (i : Instr) (s t : State), i.writesAcc = false → exec i s = .next t → t.acc = s.acc) ∧
  (∀ (i : Instr) (s : State) (v : Word), i.readsAcc = false → i.writesAcc = true →
    exec i { s with acc := v } = exec i s) ∧
  (∀ (i : Instr) (s t : State) (v : Word), i.readsAcc = false → i.writesAcc = false →
    exec i s = .next t → exec i { s with acc := v } = .next { t with acc := v }) ∧
  (∀ (i : Instr) (s : State) (v : Word) (e : Fault), i.readsAcc = false →
    exec i s = .fault e → exec i { s with acc := v } = .fault e)

/-- R23: X and Y influence no instruction: whatever they hold, the outcome and the next state are the same.
Rests on D7 (log 10). -/
def Obligations.ShadowsInfluenceNothing : Prop :=
  ∀ (i : Instr) (s : State) (u v : Word), exec i { s with x := u, y := v } = exec i s

/-- R23, R123: after a committed step of any instruction but ADD and ADC, X and Y are 0. Rests on D7
(log 10). -/
def Obligations.ShadowsZeroUnlessAddition : Prop :=
  ∀ (i : Instr) (s t : State), exec i s = .next t → i.writesShadows = false → t.x = 0 ∧ t.y = 0

/-- R25: IR receives the fetched word on commit only, no instruction reads or writes it, and it is 0 at
reset. -/
def Obligations.InstructionRegisterHoldsLastCommittedWord : Prop :=
  (∀ (s t : State) (w : Word), Memory.read s.mem s.ip.toNat = some w → step s = .next t → t.ir = w) ∧
  (∀ s : State, (∀ t, step s ≠ .next t) → (requestStep s).2.ir = s.ir) ∧
  (∀ (i : Instr) (s t : State) (v : Word), exec i s = .next t →
    exec i { s with ir := v } = .next { t with ir := v }) ∧
  (∀ (i : Instr) (s : State) (v : Word) (e : Fault), exec i s = .fault e →
    exec i { s with ir := v } = .fault e) ∧
  State.reset.ir = 0

/-- R26, R27, R28: RA is written only by CALL and STRA, SP only by STSP, FP only by STFP. Rests on D9
(log 12). -/
def Obligations.PointerRegisterWriters : Prop :=
  ∀ (i : Instr) (s t : State), exec i s = .next t →
    (t.ra ≠ s.ra → (∃ a, i = .call a) ∨ i = .stra) ∧
    (t.sp ≠ s.sp → i = .stsp) ∧
    (t.fp ≠ s.fp → i = .stfp)

/-- R140, the table of what each instruction does to IP. Rests on D6, D9 and D23 (log 9, log 12, log 23). -/
def Obligations.InstructionPointerAfterCommittedStep : Prop :=
  ∀ (i : Instr) (s t : State), exec i s = .next t →
    s.ip ≠ 0xFFFFF#20 ∧
    match i with
    | .jmp a => t.ip = a
    | .jmn a => t.ip = if s.acc.getLsbD 23 then a else s.ip + 1
    | .call a => t.ip = a ∧ t.ra.toNat = s.ip.toNat + 1
    | .ret => (t.ip.toNat : Int) = sval s.ra
    | _ => t.ip = s.ip + 1

/-! ### Values -/

/-- R8: `coerceToValue` never fails, is the only word congruent to its argument, and is idempotent. -/
def Obligations.CoerceToValueReducesModuloWord : Prop :=
  ∀ v : Int,
    sval (coerceToValue v) = (v + 2 ^ 23) % 2 ^ 24 - 2 ^ 23 ∧
    sval (coerceToValue v) % 2 ^ 24 = v % 2 ^ 24 ∧
    (∀ w : Word, sval w % 2 ^ 24 = v % 2 ^ 24 → w = coerceToValue v) ∧
    (-(2 ^ 23) ≤ v → v < 2 ^ 23 → sval (coerceToValue v) = v) ∧
    coerceToValue (sval (coerceToValue v)) = coerceToValue v

/-- R9, property S3 of the source: `coerceToAddress` is the identity on the address domain and Overflow
elsewhere, words read with `sval`. The last part rests on D8 (log 11). -/
def Obligations.CoerceToAddressChecksDomain : Prop :=
  (∀ v : Int, 0 ≤ v → v < 2 ^ 20 → ∃ a, coerceToAddress v = .ok a ∧ (a.toNat : Int) = v) ∧
  (∀ v : Int, v < 0 ∨ 2 ^ 20 ≤ v → coerceToAddress v = .error (.overflow v)) ∧
  (∀ w : Word, w.getLsbD 23 = true → coerceToAddress (sval w) = .error (.overflow (sval w)))

/-- R120, the arithmetic law: the exact sum reduced by `coerceToValue`, the same pattern as the unsigned sum
modulo 2^24, with the rule's fixed points. -/
def Obligations.AdditionWrapsModuloWord : Prop :=
  (∀ a b : Word,
    addWords a b = coerceToValue (sval a + sval b) ∧
    (addWords a b).toNat = (a.toNat + b.toNat) % 2 ^ 24 ∧
    addWords a b = addWords b a ∧
    (∀ c, addWords (addWords a b) c = addWords a (addWords b c)) ∧
    addWords a 0 = a) ∧
  addWords 0x7FFFFF#24 0x7FFFFF#24 = 0xFFFFFE#24 ∧ addWords 0x800000#24 0x800000#24 = 0 ∧
  addWords 0x7FFFFF#24 1 = 0x800000#24 ∧ addWords 0xFFFFFF#24 1 = 0

/-! ### Results of the instructions

Each says that the instruction completes, with every field of the next state, wherever IP is not the last
address (at the last address see `LastAddressOverflows`), and where its body fails. -/

/-- R111, LDC: the zero-extended constant. Rests on D4 (log 7). -/
def Obligations.LdcLoadsConstant : Prop :=
  ∀ (c : Address) (s : State), decode (0x0#4 ++ c : Word) = .ok (.ldc c) ∧
    (s.ip ≠ 0xFFFFF#20 → exec (.ldc c) s =
      .next { s with acc := c.setWidth 24, x := 0, y := 0, ip := s.ip + 1 })

/-- R112, LDV: the word of cell `a`, or UninitializedMemory(a). -/
def Obligations.LdvLoadsCell : Prop :=
  ∀ (a : Address) (s : State), decode (0x1#4 ++ a : Word) = .ok (.ldv a) ∧
    (s.ip ≠ 0xFFFFF#20 →
      (∀ m, Memory.read s.mem a.toNat = some m → exec (.ldv a) s =
        .next { s with acc := m, x := 0, y := 0, ip := s.ip + 1 }) ∧
      (Memory.read s.mem a.toNat = none → exec (.ldv a) s = .fault (.uninitializedMemory a)))

/-- R113, STV: cell `a` takes ACC, set or unset before; it never fails; the next fetch of `a` sees the word. -/
def Obligations.StvStoresAccumulator : Prop :=
  ∀ (a : Address) (s : State), decode (0x2#4 ++ a : Word) = .ok (.stv a) ∧
    (s.ip ≠ 0xFFFFF#20 → ∃ t : State, exec (.stv a) s = .next t ∧
      t = { s with mem := Memory.write s.mem a.toNat s.acc, x := 0, y := 0, ip := s.ip + 1 } ∧
      fetch { t with ip := a } = .ok s.acc)

/-- R114, LDIV: through the pointer word in cell `a`, its failures in the rule's order. Rests on D8
(log 11). -/
def Obligations.LdivLoadsThroughPointer : Prop :=
  ∀ (a : Address) (s : State), decode (0xA#4 ++ a : Word) = .ok (.ldiv a) ∧
    (s.ip ≠ 0xFFFFF#20 →
      (Memory.read s.mem a.toNat = none → exec (.ldiv a) s = .fault (.uninitializedMemory a)) ∧
      ∀ p, Memory.read s.mem a.toNat = some p →
        (sval p < 0 ∨ 2 ^ 20 ≤ sval p → exec (.ldiv a) s = .fault (.overflow (sval p))) ∧
        ∀ ea : Address, sval p = ea.toNat →
          (Memory.read s.mem ea.toNat = none → exec (.ldiv a) s = .fault (.uninitializedMemory ea)) ∧
          ∀ m, Memory.read s.mem ea.toNat = some m → exec (.ldiv a) s =
            .next { s with acc := m, x := 0, y := 0, ip := s.ip + 1 })

/-- R115, STIV: through the pointer word in cell `a`; the target may be unset. Rests on D8 (log 11). -/
def Obligations.StivStoresThroughPointer : Prop :=
  ∀ (a : Address) (s : State), decode (0xB#4 ++ a : Word) = .ok (.stiv a) ∧
    (s.ip ≠ 0xFFFFF#20 →
      (Memory.read s.mem a.toNat = none → exec (.stiv a) s = .fault (.uninitializedMemory a)) ∧
      ∀ p, Memory.read s.mem a.toNat = some p →
        (sval p < 0 ∨ 2 ^ 20 ≤ sval p → exec (.stiv a) s = .fault (.overflow (sval p))) ∧
        ∀ ea : Address, sval p = ea.toNat → exec (.stiv a) s =
          .next { s with mem := Memory.write s.mem ea.toNat s.acc, x := 0, y := 0, ip := s.ip + 1 })

/-- R116 and R118, LDRS and LDRF: the cell at base plus unsigned displacement, summed on integers. Rests on
D4 and D9 (log 7, log 12). -/
def Obligations.RelativeLoadsAddBaseAndDisplacement : Prop :=
  ∀ (d : Address) (s : State), s.ip ≠ 0xFFFFF#20 →
    ((sval s.sp + d.toNat < 0 ∨ 2 ^ 20 ≤ sval s.sp + d.toNat →
        exec (.ldrs d) s = .fault (.overflow (sval s.sp + d.toNat))) ∧
      ∀ ea : Address, sval s.sp + d.toNat = ea.toNat →
        (Memory.read s.mem ea.toNat = none → exec (.ldrs d) s = .fault (.uninitializedMemory ea)) ∧
        ∀ m, Memory.read s.mem ea.toNat = some m → exec (.ldrs d) s =
          .next { s with acc := m, x := 0, y := 0, ip := s.ip + 1 }) ∧
    ((sval s.fp + d.toNat < 0 ∨ 2 ^ 20 ≤ sval s.fp + d.toNat →
        exec (.ldrf d) s = .fault (.overflow (sval s.fp + d.toNat))) ∧
      ∀ ea : Address, sval s.fp + d.toNat = ea.toNat →
        (Memory.read s.mem ea.toNat = none → exec (.ldrf d) s = .fault (.uninitializedMemory ea)) ∧
        ∀ m, Memory.read s.mem ea.toNat = some m → exec (.ldrf d) s =
          .next { s with acc := m, x := 0, y := 0, ip := s.ip + 1 })

/-- R117 and R119, STRS and STRF: ACC to the cell at base plus unsigned displacement. Rests on D4 and D9
(log 7, log 12). -/
def Obligations.RelativeStoresAddBaseAndDisplacement : Prop :=
  ∀ (d : Address) (s : State), s.ip ≠ 0xFFFFF#20 →
    ((sval s.sp + d.toNat < 0 ∨ 2 ^ 20 ≤ sval s.sp + d.toNat →
        exec (.strs d) s = .fault (.overflow (sval s.sp + d.toNat))) ∧
      ∀ ea : Address, sval s.sp + d.toNat = ea.toNat → exec (.strs d) s =
        .next { s with mem := Memory.write s.mem ea.toNat s.acc, x := 0, y := 0, ip := s.ip + 1 }) ∧
    ((sval s.fp + d.toNat < 0 ∨ 2 ^ 20 ≤ sval s.fp + d.toNat →
        exec (.strf d) s = .fault (.overflow (sval s.fp + d.toNat))) ∧
      ∀ ea : Address, sval s.fp + d.toNat = ea.toNat → exec (.strf d) s =
        .next { s with mem := Memory.write s.mem ea.toNat s.acc, x := 0, y := 0, ip := s.ip + 1 })

/-- R121, ADD: the wrapped sum, and both operands in the shadows. Rests on D7 for X and Y (log 10). -/
def Obligations.AddSumsAndShadows : Prop :=
  ∀ (a : Address) (s : State), decode (0x3#4 ++ a : Word) = .ok (.add a) ∧
    (s.ip ≠ 0xFFFFF#20 →
      (∀ m, Memory.read s.mem a.toNat = some m → exec (.add a) s =
        .next { s with acc := coerceToValue (sval s.acc + sval m), x := s.acc, y := m, ip := s.ip + 1 }) ∧
      (Memory.read s.mem a.toNat = none → exec (.add a) s = .fault (.uninitializedMemory a)))

/-- R122, ADC: the wrapped sum with the unsigned constant. Rests on D4 and D7 (log 7, log 10). -/
def Obligations.AdcAddsUnsignedConstant : Prop :=
  ∀ (c : Address) (s : State), decode (0xD#4 ++ c : Word) = .ok (.adc c) ∧
    (s.ip ≠ 0xFFFFF#20 → exec (.adc c) s =
      .next { s with acc := coerceToValue (sval s.acc + c.toNat), x := s.acc, y := c.setWidth 24,
                     ip := s.ip + 1 })

/-- R126, R127, R128: AND, OR, XOR with a cell, bit by bit. X = Y = 0 after them rests on D7 (R125 (c);
log 10). -/
def Obligations.BitwiseOperationsWithCell : Prop :=
  ∀ (a : Address) (s : State),
    (decode (0x4#4 ++ a : Word) = .ok (.and a) ∧ decode (0x5#4 ++ a : Word) = .ok (.or a) ∧
      decode (0x6#4 ++ a : Word) = .ok (.xor a)) ∧
    (s.ip ≠ 0xFFFFF#20 →
      (∀ m, Memory.read s.mem a.toNat = some m →
        (∃ r : Word, exec (.and a) s = .next { s with acc := r, x := 0, y := 0, ip := s.ip + 1 } ∧
          ∀ k < 24, r.getLsbD k = (s.acc.getLsbD k && m.getLsbD k)) ∧
        (∃ r : Word, exec (.or a) s = .next { s with acc := r, x := 0, y := 0, ip := s.ip + 1 } ∧
          ∀ k < 24, r.getLsbD k = (s.acc.getLsbD k || m.getLsbD k)) ∧
        (∃ r : Word, exec (.xor a) s = .next { s with acc := r, x := 0, y := 0, ip := s.ip + 1 } ∧
          ∀ k < 24, r.getLsbD k = (s.acc.getLsbD k ^^ m.getLsbD k))) ∧
      (Memory.read s.mem a.toNat = none →
        exec (.and a) s = .fault (.uninitializedMemory a) ∧
        exec (.or a) s = .fault (.uninitializedMemory a) ∧
        exec (.xor a) s = .fault (.uninitializedMemory a)))

/-- R129, NOT: every bit complemented, in the signed reading `-sval(ACC) - 1`. X = Y = 0 after it rests on D7
(R125 (c); log 10), the ignored argument bits on D12 (log 15). -/
def Obligations.NotComplementsAccumulator : Prop :=
  ∀ (z : BitVec 16) (s : State), decode (0xF1#8 ++ z : Word) = .ok .not ∧
    (s.ip ≠ 0xFFFFF#20 → ∃ r : Word,
      exec .not s = .next { s with acc := r, x := 0, y := 0, ip := s.ip + 1 } ∧
      (∀ k < 24, r.getLsbD k = !s.acc.getLsbD k) ∧ sval r = -sval s.acc - 1)

/-- R130, RAR: bit 0 to bit 23, every other bit one place down; 24 rotations restore a word. Rests on D11
(log 14), and X = Y = 0 after it on D7 (R125 (c); log 10). -/
def Obligations.RarRotatesOneBit : Prop :=
  (∀ s : State, s.ip ≠ 0xFFFFF#20 → ∃ r : Word,
    exec .rar s = .next { s with acc := r, x := 0, y := 0, ip := s.ip + 1 } ∧
    r.getLsbD 23 = s.acc.getLsbD 0 ∧ ∀ k < 23, r.getLsbD k = s.acc.getLsbD (k + 1)) ∧
  ∀ w : Word, rotateRightOne^[24] w = w

/-- R131, EQL: -1 where all 24 bits agree, else 0. Rests on D23 (log 23), and X = Y = 0 after it on D7
(R125 (c); log 10). -/
def Obligations.EqlComparesWithCell : Prop :=
  ∀ (a : Address) (s : State), s.ip ≠ 0xFFFFF#20 →
    (Memory.read s.mem a.toNat = some s.acc → exec (.eql a) s =
      .next { s with acc := 0xFFFFFF#24, x := 0, y := 0, ip := s.ip + 1 }) ∧
    (∀ m, Memory.read s.mem a.toNat = some m → m ≠ s.acc → exec (.eql a) s =
      .next { s with acc := 0, x := 0, y := 0, ip := s.ip + 1 }) ∧
    (Memory.read s.mem a.toNat = none → exec (.eql a) s = .fault (.uninitializedMemory a))

/-- R136, JMP: IP becomes the argument, which never raises. -/
def Obligations.JmpReplacesInstructionPointer : Prop :=
  ∀ (a : Address) (s : State), decode (0x8#4 ++ a : Word) = .ok (.jmp a) ∧
    (s.ip ≠ 0xFFFFF#20 → exec (.jmp a) s = .next { s with ip := a, x := 0, y := 0 })

/-- R137, JMN: taken exactly where ACC is negative. Rests on D23 (log 23). -/
def Obligations.JmnJumpsIfNegative : Prop :=
  ∀ (a : Address) (s : State), s.ip ≠ 0xFFFFF#20 →
    (sval s.acc < 0 → exec (.jmn a) s = .next { s with ip := a, x := 0, y := 0 }) ∧
    (0 ≤ sval s.acc → exec (.jmn a) s = .next { s with ip := s.ip + 1, x := 0, y := 0 })

/-- R138, CALL: RA takes the address after the CALL, IP the target. Rests on D10 (log 13). -/
def Obligations.CallSavesFollowingAddress : Prop :=
  ∀ (a : Address) (s : State), s.ip ≠ 0xFFFFF#20 →
    exec (.call a) s =
      .next { s with ra := BitVec.ofNat 24 (s.ip.toNat + 1), ip := a, x := 0, y := 0 }

/-- R139, RET: to RA's signed reading where that is an address, else Overflow. Rests on D9 (log 12). -/
def Obligations.RetReturnsToCheckedAddress : Prop :=
  ∀ s : State, s.ip ≠ 0xFFFFF#20 →
    (∀ target : Address, sval s.ra = target.toNat →
      exec .ret s = .next { s with ip := target, x := 0, y := 0 }) ∧
    (sval s.ra < 0 ∨ 2 ^ 20 ≤ sval s.ra → exec .ret s = .fault (.overflow (sval s.ra)))

/-- R144, R146, R148: LDSP, LDFP, LDRA copy all 24 bits to ACC and never fail. That they decode at every value
of their 16 argument bits rests on D12 (R68, R143 (a); log 15). -/
def Obligations.TransfersToAccumulator : Prop :=
  ∀ (z : BitVec 16) (s : State),
    (decode (0xF6#8 ++ z : Word) = .ok .ldsp ∧ decode (0xF8#8 ++ z : Word) = .ok .ldfp ∧
      decode (0xF4#8 ++ z : Word) = .ok .ldra) ∧
    (s.ip ≠ 0xFFFFF#20 →
      exec .ldsp s = .next { s with acc := s.sp, x := 0, y := 0, ip := s.ip + 1 } ∧
      exec .ldfp s = .next { s with acc := s.fp, x := 0, y := 0, ip := s.ip + 1 } ∧
      exec .ldra s = .next { s with acc := s.ra, x := 0, y := 0, ip := s.ip + 1 })

/-- R145, R147, R149: STSP, STFP, STRA copy all 24 bits of ACC, any word, unchecked. That nothing is checked
rests on D9 (R143 (b); log 12), and that they decode at every value of their 16 argument bits on D12 (R68;
log 15). -/
def Obligations.TransfersFromAccumulator : Prop :=
  ∀ (z : BitVec 16) (s : State),
    (decode (0xF7#8 ++ z : Word) = .ok .stsp ∧ decode (0xF9#8 ++ z : Word) = .ok .stfp ∧
      decode (0xF5#8 ++ z : Word) = .ok .stra) ∧
    (s.ip ≠ 0xFFFFF#20 →
      exec .stsp s = .next { s with sp := s.acc, x := 0, y := 0, ip := s.ip + 1 } ∧
      exec .stfp s = .next { s with fp := s.acc, x := 0, y := 0, ip := s.ip + 1 } ∧
      exec .stra s = .next { s with ra := s.acc, x := 0, y := 0, ip := s.ip + 1 })

/-! ### Reset and the host -/

/-- R181: every register is 0 after reset, none is unspecified. -/
def Obligations.ResetRegistersAreZero : Prop :=
  State.reset.acc = 0 ∧ State.reset.x = 0 ∧ State.reset.y = 0 ∧ State.reset.ir = 0 ∧
  State.reset.ip = 0 ∧ State.reset.ra = 0 ∧ State.reset.sp = 0 ∧ State.reset.fp = 0

/-- R182 with the empty image: every cell is unset and the first step fails at address 0. Rests on D17
(log 2). -/
def Obligations.ResetMemoryIsUnset : Prop :=
  (∀ a, Memory.read State.reset.mem a = none) ∧
  step State.reset = .fault (.uninitializedMemory 0)

/-- R38, R184: after reset with an image each entry's cell holds its word, every other cell is unset, and
every register is 0. Rests on D17 and D24 (log 2, log 26). -/
def Obligations.BootHoldsExactlyTheImage : Prop :=
  ∀ image : Image, (image.map Prod.fst).Nodup →
    (∀ a w, (a, w) ∈ image → readCell (boot image) a = some w) ∧
    (∀ a, a ∉ image.map Prod.fst → readCell (boot image) a = none) ∧
    { boot image with mem := [] } = State.reset

/-- R39, R186: when the host's data gives a state, and which one. It gives one exactly where IP and every cell
address are in the address domain and every register and cell value is the signed or unsigned reading of a
24-bit word; the state then meets the invariant, every register has the supplied value, and exactly the
supplied cells are set; every state that meets the invariant can be supplied. The refusals rest on D25
(log 24). That both readings are taken, and that a repeated address keeps its last value, are the model's
choice (log 32). -/
def Obligations.SuppliedStatesMeetInvariant : Prop :=
  (∀ (d : Supplied) (s : State), supplyState d = .ok s →
    s.Inv ∧ (s.ip.toNat : Int) = d.ip ∧ s.acc = coerceToValue d.acc ∧ s.x = coerceToValue d.x ∧
    s.y = coerceToValue d.y ∧ s.ir = coerceToValue d.ir ∧ s.ra = coerceToValue d.ra ∧
    s.sp = coerceToValue d.sp ∧ s.fp = coerceToValue d.fp ∧
    ∀ a : Address, readCell s a =
      (d.cells.reverse.find? fun c => c.1 == (a.toNat : Int)).map fun c => coerceToValue c.2) ∧
  (∀ d : Supplied, (∃ s, supplyState d = .ok s) ↔
    (0 ≤ d.ip ∧ d.ip < 2 ^ 20) ∧
    (∀ v ∈ [d.acc, d.x, d.y, d.ir, d.ra, d.sp, d.fp], -(2 ^ 23) ≤ v ∧ v < 2 ^ 24) ∧
    ∀ c ∈ d.cells, (0 ≤ c.1 ∧ c.1 < 2 ^ 20) ∧ -(2 ^ 23) ≤ c.2 ∧ c.2 < 2 ^ 24) ∧
  (∀ d : Supplied, d.ip < 0 ∨ 2 ^ 20 ≤ d.ip → supplyState d = .error (.ipOutside d.ip)) ∧
  ∀ s : State, s.Inv → ∃ d : Supplied, supplyState d = .ok s

/-- R193: going back and forward again shows the snapshot first computed, and neither moves the engine
(log 25). -/
def Obligations.HistoryReplayShowsSameSnapshot : Prop :=
  ∀ (h : History) (k : Nat), k ≤ h.view → h.view < h.buffer.length →
    (History.previousStep^[k] h).engine = h.engine ∧
    (k ≠ 0 → (History.previousStep^[k] h).nextStep = .next (History.previousStep^[k - 1] h)) ∧
    (History.previousStep^[k] h).current = (h.buffer[h.view - k]?).getD h.engine.current

/-- Property S1 of the source (R67, R81, R82): assembling an argument-taking mnemonic with an argument its
field holds, then decoding, gives back the instruction and the argument. Rests on D3 and D13 (log 6,
log 16). -/
def Obligations.AssembledInstructionDecodesBack : Prop :=
  ∀ r ∈ instructionTable, r.hasArgument = true → ∀ a : Address, (r.build a).wellFormed = true →
    ∃ w, assembleItem [] (.instruction r.mnemonic.toList (some (.literal a.toNat))) = .ok (.ok w) ∧
      decode w = .ok (r.build a)
end

