-- ==== Sys2Proof/Laws/Codec.lean ====
section
/-! SUPPORT. The word codec on numbers: what assembly builds, and what extraction reads of a number's
digits. -/

namespace Sys2Proof

theorem or_shiftLeft_eq (n k b : Nat) (h : b < 2 ^ k) : n <<< k ||| b = n * 2 ^ k + b := by
  rw [← Nat.shiftLeft_add_eq_or_of_lt h, Nat.shiftLeft_eq]

/-- A format-S word as a number. -/
theorem combine_small_toNat {opcode : Nat} (h : opcode ≤ 0xE) (argument : Nat) :
    (combineInstruction opcode argument).toNat = opcode * 2 ^ 20 + argument % 2 ^ 20 := by
  have h1 : ¬ opcode > 15 := by omega
  have h2 : argument &&& 0xFFFFF = argument % 2 ^ 20 := Nat.and_two_pow_sub_one_eq_mod argument 20
  have h3 : argument % 2 ^ 20 < 2 ^ 20 := Nat.mod_lt _ (by decide)
  rw [combineInstruction, if_neg h1, h2, or_shiftLeft_eq _ _ _ h3, BitVec.toNat_ofNat]
  omega

/-- A format-L word as a number. -/
theorem combine_large_toNat {opcode : Nat} (h : 0xF0 ≤ opcode) (h' : opcode ≤ 0xFF) (argument : Nat) :
    (combineInstruction opcode argument).toNat = opcode * 2 ^ 16 + argument % 2 ^ 16 := by
  have h1 : opcode > 15 := by omega
  have h2 : argument &&& 0xFFFF = argument % 2 ^ 16 := Nat.and_two_pow_sub_one_eq_mod argument 16
  have h3 : argument % 2 ^ 16 < 2 ^ 16 := Nat.mod_lt _ (by decide)
  rw [combineInstruction, if_pos h1, h2, or_shiftLeft_eq _ _ _ h3, BitVec.toNat_ofNat]
  omega

/-- A word is in format L exactly when its number is at least 0xF00000 (R62). -/
theorem isLargeFormat_iff (w : Word) : isLargeFormat w = true ↔ 0xF00000 ≤ w.toNat := by
  have := w.isLt
  simp only [isLargeFormat, bitField, beq_iff_eq]
  omega

theorem extractOpcode_small {w : Word} (h : w.toNat < 0xF00000) :
    extractOpcode w = w.toNat / 2 ^ 20 := by
  have hl : isLargeFormat w = false := by
    rw [Bool.eq_false_iff, ne_eq, isLargeFormat_iff]
    omega
  have := w.isLt
  simp only [extractOpcode, hl, bitField]
  norm_num
  omega

theorem extractOpcode_large {w : Word} (h : 0xF00000 ≤ w.toNat) :
    extractOpcode w = w.toNat / 2 ^ 16 := by
  have := w.isLt
  simp only [extractOpcode, (isLargeFormat_iff w).2 h, bitField]
  norm_num
  omega

theorem extractArgument_small {w : Word} (h : w.toNat < 0xF00000) :
    (extractArgument w).toNat = w.toNat % 2 ^ 20 := by
  have hl : isLargeFormat w = false := by
    rw [Bool.eq_false_iff, ne_eq, isLargeFormat_iff]
    omega
  simp [extractArgument, hl, bitField]

theorem extractArgument_large {w : Word} (h : 0xF00000 ≤ w.toNat) :
    (extractArgument w).toNat = w.toNat % 2 ^ 16 := by
  simp only [extractArgument, (isLargeFormat_iff w).2 h, bitField, BitVec.toNat_ofNat]
  norm_num
  omega

/-- An opcode below 256 that the table resolves is its row's. -/
theorem resolve_opcode {opcode : Nat} {r : TableRow} (h : resolve opcode = some r) :
    r ∈ instructionTable ∧ r.opcode = opcode := by
  have h2 := List.find?_some h
  exact ⟨List.mem_of_find?_eq_some h, by simpa using h2⟩

end Sys2Proof
end

