-- ==== Sys2Proof/Laws/State.lean ====
section
/-! SUPPORT. One lemma per field per register write, so that no proof unfolds a record update. -/

namespace Sys2Proof.Machine

variable (s : State)

@[simp] theorem State.setAcc_acc (w : Word) : (s.setAcc w).acc = w := rfl
@[simp] theorem State.setAcc_x (w : Word) : (s.setAcc w).x = s.x := rfl
@[simp] theorem State.setAcc_y (w : Word) : (s.setAcc w).y = s.y := rfl
@[simp] theorem State.setAcc_ir (w : Word) : (s.setAcc w).ir = s.ir := rfl
@[simp] theorem State.setAcc_ip (w : Word) : (s.setAcc w).ip = s.ip := rfl
@[simp] theorem State.setAcc_ra (w : Word) : (s.setAcc w).ra = s.ra := rfl
@[simp] theorem State.setAcc_sp (w : Word) : (s.setAcc w).sp = s.sp := rfl
@[simp] theorem State.setAcc_fp (w : Word) : (s.setAcc w).fp = s.fp := rfl
@[simp] theorem State.setAcc_mem (w : Word) : (s.setAcc w).mem = s.mem := rfl

@[simp] theorem State.setX_acc (w : Word) : (s.setX w).acc = s.acc := rfl
@[simp] theorem State.setX_x (w : Word) : (s.setX w).x = w := rfl
@[simp] theorem State.setX_y (w : Word) : (s.setX w).y = s.y := rfl
@[simp] theorem State.setX_ir (w : Word) : (s.setX w).ir = s.ir := rfl
@[simp] theorem State.setX_ip (w : Word) : (s.setX w).ip = s.ip := rfl
@[simp] theorem State.setX_ra (w : Word) : (s.setX w).ra = s.ra := rfl
@[simp] theorem State.setX_sp (w : Word) : (s.setX w).sp = s.sp := rfl
@[simp] theorem State.setX_fp (w : Word) : (s.setX w).fp = s.fp := rfl
@[simp] theorem State.setX_mem (w : Word) : (s.setX w).mem = s.mem := rfl

@[simp] theorem State.setY_acc (w : Word) : (s.setY w).acc = s.acc := rfl
@[simp] theorem State.setY_x (w : Word) : (s.setY w).x = s.x := rfl
@[simp] theorem State.setY_y (w : Word) : (s.setY w).y = w := rfl
@[simp] theorem State.setY_ir (w : Word) : (s.setY w).ir = s.ir := rfl
@[simp] theorem State.setY_ip (w : Word) : (s.setY w).ip = s.ip := rfl
@[simp] theorem State.setY_ra (w : Word) : (s.setY w).ra = s.ra := rfl
@[simp] theorem State.setY_sp (w : Word) : (s.setY w).sp = s.sp := rfl
@[simp] theorem State.setY_fp (w : Word) : (s.setY w).fp = s.fp := rfl
@[simp] theorem State.setY_mem (w : Word) : (s.setY w).mem = s.mem := rfl

@[simp] theorem State.setIr_acc (w : Word) : (s.setIr w).acc = s.acc := rfl
@[simp] theorem State.setIr_x (w : Word) : (s.setIr w).x = s.x := rfl
@[simp] theorem State.setIr_y (w : Word) : (s.setIr w).y = s.y := rfl
@[simp] theorem State.setIr_ir (w : Word) : (s.setIr w).ir = w := rfl
@[simp] theorem State.setIr_ip (w : Word) : (s.setIr w).ip = s.ip := rfl
@[simp] theorem State.setIr_ra (w : Word) : (s.setIr w).ra = s.ra := rfl
@[simp] theorem State.setIr_sp (w : Word) : (s.setIr w).sp = s.sp := rfl
@[simp] theorem State.setIr_fp (w : Word) : (s.setIr w).fp = s.fp := rfl
@[simp] theorem State.setIr_mem (w : Word) : (s.setIr w).mem = s.mem := rfl

@[simp] theorem State.setIp_acc (a : Address) : (s.setIp a).acc = s.acc := rfl
@[simp] theorem State.setIp_x (a : Address) : (s.setIp a).x = s.x := rfl
@[simp] theorem State.setIp_y (a : Address) : (s.setIp a).y = s.y := rfl
@[simp] theorem State.setIp_ir (a : Address) : (s.setIp a).ir = s.ir := rfl
@[simp] theorem State.setIp_ip (a : Address) : (s.setIp a).ip = a := rfl
@[simp] theorem State.setIp_ra (a : Address) : (s.setIp a).ra = s.ra := rfl
@[simp] theorem State.setIp_sp (a : Address) : (s.setIp a).sp = s.sp := rfl
@[simp] theorem State.setIp_fp (a : Address) : (s.setIp a).fp = s.fp := rfl
@[simp] theorem State.setIp_mem (a : Address) : (s.setIp a).mem = s.mem := rfl

@[simp] theorem State.setRa_acc (w : Word) : (s.setRa w).acc = s.acc := rfl
@[simp] theorem State.setRa_x (w : Word) : (s.setRa w).x = s.x := rfl
@[simp] theorem State.setRa_y (w : Word) : (s.setRa w).y = s.y := rfl
@[simp] theorem State.setRa_ir (w : Word) : (s.setRa w).ir = s.ir := rfl
@[simp] theorem State.setRa_ip (w : Word) : (s.setRa w).ip = s.ip := rfl
@[simp] theorem State.setRa_ra (w : Word) : (s.setRa w).ra = w := rfl
@[simp] theorem State.setRa_sp (w : Word) : (s.setRa w).sp = s.sp := rfl
@[simp] theorem State.setRa_fp (w : Word) : (s.setRa w).fp = s.fp := rfl
@[simp] theorem State.setRa_mem (w : Word) : (s.setRa w).mem = s.mem := rfl

@[simp] theorem State.setSp_acc (w : Word) : (s.setSp w).acc = s.acc := rfl
@[simp] theorem State.setSp_x (w : Word) : (s.setSp w).x = s.x := rfl
@[simp] theorem State.setSp_y (w : Word) : (s.setSp w).y = s.y := rfl
@[simp] theorem State.setSp_ir (w : Word) : (s.setSp w).ir = s.ir := rfl
@[simp] theorem State.setSp_ip (w : Word) : (s.setSp w).ip = s.ip := rfl
@[simp] theorem State.setSp_ra (w : Word) : (s.setSp w).ra = s.ra := rfl
@[simp] theorem State.setSp_sp (w : Word) : (s.setSp w).sp = w := rfl
@[simp] theorem State.setSp_fp (w : Word) : (s.setSp w).fp = s.fp := rfl
@[simp] theorem State.setSp_mem (w : Word) : (s.setSp w).mem = s.mem := rfl

@[simp] theorem State.setFp_acc (w : Word) : (s.setFp w).acc = s.acc := rfl
@[simp] theorem State.setFp_x (w : Word) : (s.setFp w).x = s.x := rfl
@[simp] theorem State.setFp_y (w : Word) : (s.setFp w).y = s.y := rfl
@[simp] theorem State.setFp_ir (w : Word) : (s.setFp w).ir = s.ir := rfl
@[simp] theorem State.setFp_ip (w : Word) : (s.setFp w).ip = s.ip := rfl
@[simp] theorem State.setFp_ra (w : Word) : (s.setFp w).ra = s.ra := rfl
@[simp] theorem State.setFp_sp (w : Word) : (s.setFp w).sp = s.sp := rfl
@[simp] theorem State.setFp_fp (w : Word) : (s.setFp w).fp = w := rfl
@[simp] theorem State.setFp_mem (w : Word) : (s.setFp w).mem = s.mem := rfl

@[simp] theorem State.setMem_acc (m : Memory) : (s.setMem m).acc = s.acc := rfl
@[simp] theorem State.setMem_x (m : Memory) : (s.setMem m).x = s.x := rfl
@[simp] theorem State.setMem_y (m : Memory) : (s.setMem m).y = s.y := rfl
@[simp] theorem State.setMem_ir (m : Memory) : (s.setMem m).ir = s.ir := rfl
@[simp] theorem State.setMem_ip (m : Memory) : (s.setMem m).ip = s.ip := rfl
@[simp] theorem State.setMem_ra (m : Memory) : (s.setMem m).ra = s.ra := rfl
@[simp] theorem State.setMem_sp (m : Memory) : (s.setMem m).sp = s.sp := rfl
@[simp] theorem State.setMem_fp (m : Memory) : (s.setMem m).fp = s.fp := rfl
@[simp] theorem State.setMem_mem (m : Memory) : (s.setMem m).mem = m := rfl

end Sys2Proof.Machine
end

