-- ==== Sys2Proof/Laws/Memory.lean ====
section
/-! SUPPORT. The laws of a memory: what a write lets later reads see, and that it keeps the canonical form. -/

namespace Sys2Proof.Machine

@[simp] theorem Memory.read_nil (a : Nat) : Memory.read [] a = none := rfl

@[simp] theorem Memory.read_write_self (m : Memory) (a : Nat) (w : Word) :
    Memory.read (Memory.write m a w) a = some w := by
  induction m with
  | nil => simp [Memory.write, Memory.read]
  | cons c m ih =>
    obtain ⟨k, v⟩ := c
    rcases Nat.lt_trichotomy a k with h | rfl | h
    · simp [Memory.write, Memory.read, h]
    · simp [Memory.write, Memory.read]
    · simp [Memory.write, Memory.read, ih, Nat.lt_asymm h, Nat.ne_of_gt h, Nat.ne_of_lt h]

theorem Memory.read_write_other (m : Memory) {a b : Nat} (w : Word) (hb : b ≠ a) :
    Memory.read (Memory.write m a w) b = Memory.read m b := by
  induction m with
  | nil => simp [Memory.write, Memory.read, hb.symm]
  | cons c m ih =>
    obtain ⟨k, v⟩ := c
    rcases Nat.lt_trichotomy a k with h | rfl | h
    · simp [Memory.write, Memory.read, h, hb.symm]
    · simp [Memory.write, Memory.read, hb.symm]
    · simp [Memory.write, Memory.read, ih, Nat.lt_asymm h, Nat.ne_of_gt h]

/-- A written memory lists the written cell and cells it listed before. -/
theorem Memory.mem_write {m : Memory} {a : Nat} {w : Word} {c : Nat × Word}
    (h : c ∈ Memory.write m a w) : c = (a, w) ∨ c ∈ m := by
  induction m with
  | nil => simpa [Memory.write] using h
  | cons d m ih =>
    obtain ⟨k, v⟩ := d
    simp only [Memory.write] at h
    split at h
    · simpa using h
    · split at h
      · rcases List.mem_cons.1 h with h | h
        · exact .inl h
        · exact .inr (List.mem_cons_of_mem _ h)
      · rcases List.mem_cons.1 h with h | h
        · exact .inr (h ▸ List.mem_cons_self)
        · exact (ih h).imp id (List.mem_cons_of_mem _)

theorem Memory.write_pairwise {m : Memory} {a : Nat} {w : Word}
    (h : m.Pairwise fun c d => c.1 < d.1) :
    (Memory.write m a w).Pairwise fun c d => c.1 < d.1 := by
  induction m with
  | nil => simp [Memory.write]
  | cons c m ih =>
    obtain ⟨k, v⟩ := c
    obtain ⟨hk, hm⟩ := List.pairwise_cons.1 h
    rcases Nat.lt_trichotomy a k with hak | rfl | hak
    · simp only [Memory.write, hak, if_true]
      refine List.pairwise_cons.2 ⟨fun d hd => ?_, h⟩
      rcases List.mem_cons.1 hd with rfl | hd
      · exact hak
      · exact Nat.lt_trans hak (hk d hd)
    · simpa [Memory.write] using List.pairwise_cons.2 ⟨hk, hm⟩
    · simp only [Memory.write, Nat.lt_asymm hak, Nat.ne_of_gt hak, if_false]
      refine List.pairwise_cons.2 ⟨fun d hd => ?_, ih hm⟩
      rcases Memory.mem_write hd with rfl | hd
      · exact hak
      · exact hk d hd

/-- A write inside the address space keeps the canonical form. -/
theorem Memory.write_wf {m : Memory} {a : Nat} {w : Word} (h : Memory.wf m)
    (ha : a < Config.memCells) : Memory.wf (Memory.write m a w) :=
  ⟨Memory.write_pairwise h.1, fun c hc => by
    rcases Memory.mem_write hc with rfl | hc
    · exact ha
    · exact h.2 c hc⟩

/-- A cell below every listed address is unset. -/
theorem Memory.read_below {m : Memory} {a : Nat} (h : ∀ c ∈ m, a < c.1) :
    Memory.read m a = none := by
  induction m with
  | nil => rfl
  | cons c m ih =>
    obtain ⟨k, v⟩ := c
    have hk : a < k := h (k, v) List.mem_cons_self
    simp [Memory.read, Nat.ne_of_gt hk, ih fun d hd => h d (List.mem_cons_of_mem _ hd)]

end Sys2Proof.Machine
end

