-- ==== Sys2Proof/Laws/Ops.lean ====
section
/-! SUPPORT. One lemma per shared operation that says everything it can answer. -/

namespace Sys2Proof.Machine

theorem coerceToAddress_ok_iff {v : Int} {a : Address} :
    coerceToAddress v = .ok a ↔ (0 ≤ v ∧ v ≤ 0xFFFFF) ∧ BitVec.ofInt 20 v = a := by
  cases v with
  | ofNat n =>
    simp only [coerceToAddress, Int.ofNat_eq_natCast, Int.natCast_nonneg, true_and,
      BitVec.ofInt_natCast]
    by_cases h : n ≤ 0xFFFFF <;> simp [h]
  | negSucc n =>
    have hn : ¬ (0 ≤ Int.negSucc n) := by omega
    simp [coerceToAddress, hn]

theorem coerceToAddress_error_iff {v : Int} {e : Fault} :
    coerceToAddress v = .error e ↔ ¬ (0 ≤ v ∧ v ≤ 0xFFFFF) ∧ .overflow v = e := by
  cases v with
  | ofNat n =>
    have hn : (Int.ofNat n ≤ 0xFFFFF) ↔ n ≤ 0xFFFFF := by
      rw [Int.ofNat_eq_natCast]
      omega
    have h0 : 0 ≤ Int.ofNat n := Int.natCast_nonneg n
    simp only [coerceToAddress, hn, h0, true_and]
    by_cases h : n ≤ 0xFFFFF <;> simp [h]
  | negSucc n =>
    have hn : ¬ (0 ≤ Int.negSucc n) := by omega
    simp [coerceToAddress, hn]

theorem memRead_ok_iff {s : State} {a : Address} {w : Word} :
    memRead s a = .ok w ↔ Memory.read s.mem a.toNat = some w := by
  unfold memRead
  cases h : Memory.read s.mem a.toNat <;> simp

theorem memRead_error_iff {s : State} {a : Address} {e : Fault} :
    memRead s a = .error e ↔ Memory.read s.mem a.toNat = none ∧ .uninitializedMemory a = e := by
  unfold memRead
  cases h : Memory.read s.mem a.toNat <;> simp

theorem bind_ok_iff {ε α β : Type} {r : Except ε α} {f : α → Except ε β} {b : β} :
    (r >>= f) = .ok b ↔ ∃ a, r = .ok a ∧ f a = .ok b := by
  cases r <;> simp [bind, Except.bind]

theorem bind_error_iff {ε α β : Type} {r : Except ε α} {f : α → Except ε β} {e : ε} :
    (r >>= f) = .error e ↔ r = .error e ∨ ∃ a, r = .ok a ∧ f a = .error e := by
  cases r <;> simp [bind, Except.bind]

theorem commit_next_iff {r : Except Fault State} {t : State} :
    commit r = .next t ↔ r = .ok t := by
  cases r <;> simp [commit, raise]

theorem commit_fault_iff {r : Except Fault State} {e : Fault} :
    commit r = .fault e ↔ r = .error e := by
  cases r <;> simp [commit, raise]

theorem commit_not_refused (r : Except Fault State) (q : Refusal) : commit r ≠ .refused q := by
  cases r <;> simp [commit, raise]

/-- The last address as an integer, and every other one. -/
theorem ip_succ_le_iff (a : Address) : ((a.toNat : Int) + 1 ≤ 0xFFFFF) ↔ a ≠ 0xFFFFF#20 := by
  have h := a.isLt
  rw [ne_eq, ← BitVec.toNat_inj, show (0xFFFFF#20).toNat = 0xFFFFF from rfl]
  omega

/-- Stage 4, both ways it can go (R96). -/
theorem advance_eq (s : State) :
    advance s = if s.ip = 0xFFFFF#20 then .error (.overflow 0x100000) else .ok s.advanced := by
  have h1 := ip_succ_le_iff s.ip
  have h0 : (0 : Int) ≤ (s.ip.toNat : Int) + 1 := by omega
  unfold advance
  by_cases h : s.ip = 0xFFFFF#20
  · have h2 : ((s.ip.toNat : Int) + 1) = 0x100000 := by
      rw [h, show (0xFFFFF#20).toNat = 0xFFFFF from rfl]
      norm_num
    rw [if_pos h, coerceToAddress_error_iff.2 ⟨fun hc => h1.1 hc.2 h, by rw [h2]⟩]
    rfl
  · have h2 : BitVec.ofInt 20 ((s.ip.toNat : Int) + 1) = s.ip + 1 := by
      rw [← Int.natCast_succ, BitVec.ofInt_natCast]
      simp [BitVec.ofNat_add]
    rw [if_neg h, coerceToAddress_ok_iff.2 ⟨⟨h0, h1.2 h⟩, h2⟩]
    rfl

theorem execute_next_iff {body : State → Except Fault State} {s t : State} :
    execute body s = .next t ↔ s.ip ≠ 0xFFFFF#20 ∧ body s.advanced = .ok t := by
  rw [execute, commit_next_iff, advance_eq]
  by_cases h : s.ip = 0xFFFFF#20 <;> simp [h, bind, Except.bind]

theorem execute_fault_iff {body : State → Except Fault State} {s : State} {e : Fault} :
    execute body s = .fault e ↔
      (s.ip = 0xFFFFF#20 ∧ e = .overflow 0x100000) ∨ (s.ip ≠ 0xFFFFF#20 ∧ body s.advanced = .error e) := by
  rw [execute, commit_fault_iff, advance_eq]
  by_cases h : s.ip = 0xFFFFF#20 <;> simp [h, bind, Except.bind, eq_comm]

theorem execute_not_refused (body : State → Except Fault State) (s : State) (q : Refusal) :
    execute body s ≠ .refused q := commit_not_refused _ q

@[simp] theorem State.advanced_acc (s : State) : s.advanced.acc = s.acc := rfl
@[simp] theorem State.advanced_x (s : State) : s.advanced.x = 0 := rfl
@[simp] theorem State.advanced_y (s : State) : s.advanced.y = 0 := rfl
@[simp] theorem State.advanced_ir (s : State) : s.advanced.ir = s.ir := rfl
@[simp] theorem State.advanced_ip (s : State) : s.advanced.ip = s.ip + 1 := rfl
@[simp] theorem State.advanced_ra (s : State) : s.advanced.ra = s.ra := rfl
@[simp] theorem State.advanced_sp (s : State) : s.advanced.sp = s.sp := rfl
@[simp] theorem State.advanced_fp (s : State) : s.advanced.fp = s.fp := rfl
@[simp] theorem State.advanced_mem (s : State) : s.advanced.mem = s.mem := rfl

theorem loadAcc_ok_iff {t u : State} {ea : Address} :
    loadAcc t ea = .ok u ↔ ∃ m, Memory.read t.mem ea.toNat = some m ∧ u = t.setAcc m := by
  simp only [loadAcc, bind_ok_iff, memRead_ok_iff, pure, Except.pure, Except.ok.injEq]
  simp only [eq_comm]

theorem loadAcc_error_iff {t : State} {ea : Address} {e : Fault} :
    loadAcc t ea = .error e ↔
      Memory.read t.mem ea.toNat = none ∧ .uninitializedMemory ea = e := by
  simp [loadAcc, bind_error_iff, memRead_error_iff, pure, Except.pure]

theorem accWithMemory_ok_iff {f : Word → Word → Word} {t u : State} {a : Address} :
    accWithMemory f t a = .ok u ↔
      ∃ m, Memory.read t.mem a.toNat = some m ∧ u = t.setAcc (f t.acc m) := by
  simp only [accWithMemory, bind_ok_iff, memRead_ok_iff, pure, Except.pure, Except.ok.injEq]
  simp only [eq_comm]

theorem accWithMemory_error_iff {f : Word → Word → Word} {t : State} {a : Address} {e : Fault} :
    accWithMemory f t a = .error e ↔
      Memory.read t.mem a.toNat = none ∧ .uninitializedMemory a = e := by
  simp [accWithMemory, bind_error_iff, memRead_error_iff, pure, Except.pure]

theorem indirectAddress_ok_iff {t : State} {a ea : Address} :
    indirectAddress t a = .ok ea ↔
      ∃ p, Memory.read t.mem a.toNat = some p ∧ coerceToAddress (sval p) = .ok ea := by
  simp [indirectAddress, bind_ok_iff, memRead_ok_iff]

theorem indirectAddress_error_iff {t : State} {a : Address} {e : Fault} :
    indirectAddress t a = .error e ↔
      (Memory.read t.mem a.toNat = none ∧ .uninitializedMemory a = e) ∨
      ∃ p, Memory.read t.mem a.toNat = some p ∧ coerceToAddress (sval p) = .error e := by
  simp [indirectAddress, bind_error_iff, memRead_ok_iff, memRead_error_iff]

/-- What a store leaves of the state: everything but its cell. -/
theorem storeAcc_eq (t : State) (ea : Address) :
    storeAcc t ea = t.setMem (Memory.write t.mem ea.toNat t.acc) := rfl

end Sys2Proof.Machine
end

