-- ==== Sys2Proof/Laws/Exec.lean ====
section
/-! SUPPORT. Each instruction as stages 4 and 5 over its body, and that every instruction but HALT is one. -/

namespace Sys2Proof.Machine

theorem exec_ldc (c : Address) (s : State) :
    exec (.ldc c) s = execute (fun t => .ok (t.setAcc (zextWord c))) s := rfl

theorem exec_ldv (a : Address) (s : State) :
    exec (.ldv a) s = execute (fun t => loadAcc t a) s := rfl

theorem exec_stv (a : Address) (s : State) :
    exec (.stv a) s = execute (fun t => .ok (storeAcc t a)) s := rfl

theorem exec_ldiv (a : Address) (s : State) :
    exec (.ldiv a) s = execute (fun t => indirectAddress t a >>= fun ea => loadAcc t ea) s := rfl

theorem exec_stiv (a : Address) (s : State) :
    exec (.stiv a) s = execute (fun t => indirectAddress t a >>= fun ea => .ok (storeAcc t ea)) s := rfl

theorem exec_ldrs (d : Address) (s : State) :
    exec (.ldrs d) s = execute (fun t => relativeAddress t.sp d >>= fun ea => loadAcc t ea) s := rfl

theorem exec_strs (d : Address) (s : State) :
    exec (.strs d) s = execute (fun t => relativeAddress t.sp d >>= fun ea => .ok (storeAcc t ea)) s := rfl

theorem exec_ldrf (d : Address) (s : State) :
    exec (.ldrf d) s = execute (fun t => relativeAddress t.fp d >>= fun ea => loadAcc t ea) s := rfl

theorem exec_strf (d : Address) (s : State) :
    exec (.strf d) s = execute (fun t => relativeAddress t.fp d >>= fun ea => .ok (storeAcc t ea)) s := rfl

theorem exec_add (a : Address) (s : State) :
    exec (.add a) s = execute (fun t => memRead t a >>= fun m => .ok (addToAcc t m)) s := rfl

theorem exec_adc (c : Address) (s : State) :
    exec (.adc c) s = execute (fun t => .ok (addToAcc t (zextWord c))) s := rfl

theorem exec_and (a : Address) (s : State) :
    exec (.and a) s = execute (fun t => accWithMemory (fun u m => u &&& m) t a) s := rfl

theorem exec_or (a : Address) (s : State) :
    exec (.or a) s = execute (fun t => accWithMemory (fun u m => u ||| m) t a) s := rfl

theorem exec_xor (a : Address) (s : State) :
    exec (.xor a) s = execute (fun t => accWithMemory (fun u m => u ^^^ m) t a) s := rfl

theorem exec_not (s : State) :
    exec (.not) s = execute (fun t => .ok (t.setAcc (~~~t.acc))) s := rfl

theorem exec_rar (s : State) :
    exec (.rar) s = execute (fun t => .ok (t.setAcc (rotateRightOne t.acc))) s := rfl

theorem exec_eql (a : Address) (s : State) :
    exec (.eql a) s = execute (fun t => accWithMemory equalWord t a) s := rfl

theorem exec_jmp (a : Address) (s : State) :
    exec (.jmp a) s = execute (fun t => .ok (t.setIp a)) s := rfl

theorem exec_jmn (a : Address) (s : State) :
    exec (.jmn a) s = execute (fun t => .ok (if isNegative t.acc then t.setIp a else t)) s := rfl

theorem exec_call (a : Address) (s : State) :
    exec (.call a) s = execute (fun t => .ok ((t.setRa (zextWord t.ip)).setIp a)) s := rfl

theorem exec_ret (s : State) :
    exec (.ret) s = execute (fun t => coerceToAddress (sval t.ra) >>= fun target => .ok (t.setIp target)) s := rfl

theorem exec_ldsp (s : State) :
    exec (.ldsp) s = execute (fun t => .ok (t.setAcc t.sp)) s := rfl

theorem exec_stsp (s : State) :
    exec (.stsp) s = execute (fun t => .ok (t.setSp t.acc)) s := rfl

theorem exec_ldfp (s : State) :
    exec (.ldfp) s = execute (fun t => .ok (t.setAcc t.fp)) s := rfl

theorem exec_stfp (s : State) :
    exec (.stfp) s = execute (fun t => .ok (t.setFp t.acc)) s := rfl

theorem exec_ldra (s : State) :
    exec (.ldra) s = execute (fun t => .ok (t.setAcc t.ra)) s := rfl

theorem exec_stra (s : State) :
    exec (.stra) s = execute (fun t => .ok (t.setRa t.acc)) s := rfl

theorem exec_halt (s : State) : exec .halt s = .fault .programHalt := rfl

/-- Every instruction but HALT is its body behind stage 4. -/
theorem exec_eq_execute {i : Instr} (hi : i ≠ .halt) : ∃ body, ∀ s, exec i s = execute body s := by
  cases i with
  | halt => exact absurd rfl hi
  | ldc c => exact ⟨_, exec_ldc c⟩
  | ldv a => exact ⟨_, exec_ldv a⟩
  | stv a => exact ⟨_, exec_stv a⟩
  | ldiv a => exact ⟨_, exec_ldiv a⟩
  | stiv a => exact ⟨_, exec_stiv a⟩
  | ldrs d => exact ⟨_, exec_ldrs d⟩
  | strs d => exact ⟨_, exec_strs d⟩
  | ldrf d => exact ⟨_, exec_ldrf d⟩
  | strf d => exact ⟨_, exec_strf d⟩
  | add a => exact ⟨_, exec_add a⟩
  | adc c => exact ⟨_, exec_adc c⟩
  | and a => exact ⟨_, exec_and a⟩
  | or a => exact ⟨_, exec_or a⟩
  | xor a => exact ⟨_, exec_xor a⟩
  | not => exact ⟨_, exec_not⟩
  | rar => exact ⟨_, exec_rar⟩
  | eql a => exact ⟨_, exec_eql a⟩
  | jmp a => exact ⟨_, exec_jmp a⟩
  | jmn a => exact ⟨_, exec_jmn a⟩
  | call a => exact ⟨_, exec_call a⟩
  | ret => exact ⟨_, exec_ret⟩
  | ldsp => exact ⟨_, exec_ldsp⟩
  | stsp => exact ⟨_, exec_stsp⟩
  | ldfp => exact ⟨_, exec_ldfp⟩
  | stfp => exact ⟨_, exec_stfp⟩
  | ldra => exact ⟨_, exec_ldra⟩
  | stra => exact ⟨_, exec_stra⟩

/-- An instruction that answers a next state did not stand at the last address. -/
theorem ip_ne_last_of_exec_next {i : Instr} {s t : State} (h : exec i s = .next t) :
    s.ip ≠ 0xFFFFF#20 := by
  by_cases hi : i = .halt
  · subst hi
    simp [exec_halt] at h
  · obtain ⟨body, hb⟩ := exec_eq_execute hi
    exact (execute_next_iff.1 (hb s ▸ h)).1

end Sys2Proof.Machine
end

