-- ==== Sys2Proof/Laws/Host.lean ====
section
/-! SUPPORT. What loading an image and supplying a state can answer, one lemma an operation. -/

namespace Sys2Proof.Machine

theorem suppliedWord_ok_iff {v : Int} {w : Word} :
    suppliedWord v = .ok w ↔ (-(2 ^ 23) ≤ v ∧ v < 2 ^ 24) ∧ coerceToValue v = w := by
  have h : (Config.valueMin ≤ v ∧ v ≤ 0xFFFFFF) ↔ (-(2 ^ 23) ≤ v ∧ v < 2 ^ 24) := by
    simp only [Config.valueMin]
    omega
  unfold suppliedWord
  by_cases hv : Config.valueMin ≤ v ∧ v ≤ 0xFFFFFF
  · simp only [if_pos hv, h.1 hv, Except.ok.injEq, and_self, true_and]
  · rw [if_neg hv]
    exact ⟨(by simp), fun hc => absurd (h.2 hc.1) hv⟩

theorem suppliedAddress_ok_iff {refusal : Int → SupplyRefusal} {v : Int} {a : Address} :
    suppliedAddress refusal v = .ok a ↔ coerceToAddress v = .ok a := by
  unfold suppliedAddress
  cases coerceToAddress v <;> simp

theorem suppliedCell_ok_iff {c : Int × Int} {e : Address × Word} :
    suppliedCell c = .ok e ↔ coerceToAddress c.1 = .ok e.1 ∧ suppliedWord c.2 = .ok e.2 := by
  obtain ⟨a, w⟩ := e
  simp only [suppliedCell, bind_ok_iff, suppliedAddress_ok_iff, pure, Except.pure, Except.ok.injEq,
    Prod.mk.injEq]
  constructor
  · rintro ⟨b, hb, u, hu, rfl, rfl⟩
    exact ⟨hb, hu⟩
  · rintro ⟨hb, hu⟩
    exact ⟨a, hb, w, hu, rfl, rfl⟩

/-- All that supplying a state can give (R39, R186): every part is taken, and the cells are loaded. -/
theorem supplyState_ok_iff {d : Supplied} {s : State} :
    supplyState d = .ok s ↔ ∃ ip acc x y ir ra sp fp image,
      coerceToAddress d.ip = .ok ip ∧ suppliedWord d.acc = .ok acc ∧ suppliedWord d.x = .ok x ∧
      suppliedWord d.y = .ok y ∧ suppliedWord d.ir = .ok ir ∧ suppliedWord d.ra = .ok ra ∧
      suppliedWord d.sp = .ok sp ∧ suppliedWord d.fp = .ok fp ∧
      d.cells.mapM suppliedCell = .ok image ∧
      s = loadImage image
        { acc := acc, x := x, y := y, ir := ir, ip := ip, ra := ra, sp := sp, fp := fp, mem := [] } := by
  simp only [supplyState, bind_ok_iff, suppliedAddress_ok_iff, pure, Except.pure, Except.ok.injEq]
  constructor
  · rintro ⟨ip, h1, acc, h2, x, h3, y, h4, ir, h5, ra, h6, sp, h7, fp, h8, image, h9, rfl⟩
    exact ⟨ip, acc, x, y, ir, ra, sp, fp, image, h1, h2, h3, h4, h5, h6, h7, h8, h9, rfl⟩
  · rintro ⟨ip, acc, x, y, ir, ra, sp, fp, image, h1, h2, h3, h4, h5, h6, h7, h8, h9, rfl⟩
    exact ⟨ip, h1, acc, h2, x, h3, y, h4, ir, h5, ra, h6, sp, h7, fp, h8, image, h9, rfl⟩

/-- Loading changes memory alone (R184). -/
theorem loadImage_eq (image : Image) (s : State) :
    loadImage image s = s.setMem (loadImage image s).mem := by
  induction image generalizing s with
  | nil => rfl
  | cons e image ih => exact ih (memWrite s e.1 e.2)

/-- After loading, a cell holds the last word the image gives it, or what it held (R184). -/
theorem readCell_loadImage (image : Image) (s : State) (a : Address) :
    readCell (loadImage image s) a =
      ((image.reverse.find? fun e => e.1 == a).map Prod.snd).or (readCell s a) := by
  induction image generalizing s with
  | nil => rfl
  | cons e image ih =>
    show readCell (loadImage image (memWrite s e.1 e.2)) a = _
    rw [ih, List.reverse_cons, List.find?_append]
    cases hf : image.reverse.find? fun e => e.1 == a with
    | some d => simp
    | none =>
      by_cases he : e.1 = a
      · simp [he, readCell, memWrite]
      · have hn : a.toNat ≠ e.1.toNat := fun hc => he (BitVec.eq_of_toNat_eq hc.symm)
        simp [he, readCell, memWrite, Memory.read_write_other _ _ hn]

end Sys2Proof.Machine
end

