-- ==== Sys2Proof/Laws/PerInstr.lean ====
section
/-! SUPPORT. The family OpcodeRow, instruction by instruction: the row the table resolves the instruction's
opcode to builds the instruction back from its argument, and says rightly whether it has one (30_encoding.md
R70, R71 (d)). -/

namespace Sys2Proof.Laws

/-- The table's row of an instruction's opcode is that instruction's. -/
def OpcodeRow.Statement (i : Instr) : Prop :=
  (resolve (opcodeOf i)).map (fun r => (r.build ((argumentOf i).getD 0), r.hasArgument)) =
    some (i, (argumentOf i).isSome)

theorem OpcodeRow.ldc (a : Address) : OpcodeRow.Statement (.ldc a) := rfl
theorem OpcodeRow.ldv (a : Address) : OpcodeRow.Statement (.ldv a) := rfl
theorem OpcodeRow.stv (a : Address) : OpcodeRow.Statement (.stv a) := rfl
theorem OpcodeRow.add (a : Address) : OpcodeRow.Statement (.add a) := rfl
theorem OpcodeRow.and (a : Address) : OpcodeRow.Statement (.and a) := rfl
theorem OpcodeRow.or (a : Address) : OpcodeRow.Statement (.or a) := rfl
theorem OpcodeRow.xor (a : Address) : OpcodeRow.Statement (.xor a) := rfl
theorem OpcodeRow.eql (a : Address) : OpcodeRow.Statement (.eql a) := rfl
theorem OpcodeRow.jmp (a : Address) : OpcodeRow.Statement (.jmp a) := rfl
theorem OpcodeRow.jmn (a : Address) : OpcodeRow.Statement (.jmn a) := rfl
theorem OpcodeRow.ldiv (a : Address) : OpcodeRow.Statement (.ldiv a) := rfl
theorem OpcodeRow.stiv (a : Address) : OpcodeRow.Statement (.stiv a) := rfl
theorem OpcodeRow.call (a : Address) : OpcodeRow.Statement (.call a) := rfl
theorem OpcodeRow.adc (a : Address) : OpcodeRow.Statement (.adc a) := rfl
theorem OpcodeRow.halt : OpcodeRow.Statement .halt := rfl
theorem OpcodeRow.not : OpcodeRow.Statement .not := rfl
theorem OpcodeRow.rar : OpcodeRow.Statement .rar := rfl
theorem OpcodeRow.ret : OpcodeRow.Statement .ret := rfl
theorem OpcodeRow.ldra : OpcodeRow.Statement .ldra := rfl
theorem OpcodeRow.stra : OpcodeRow.Statement .stra := rfl
theorem OpcodeRow.ldsp : OpcodeRow.Statement .ldsp := rfl
theorem OpcodeRow.stsp : OpcodeRow.Statement .stsp := rfl
theorem OpcodeRow.ldfp : OpcodeRow.Statement .ldfp := rfl
theorem OpcodeRow.stfp : OpcodeRow.Statement .stfp := rfl
theorem OpcodeRow.ldrs (a : Address) : OpcodeRow.Statement (.ldrs a) := rfl
theorem OpcodeRow.strs (a : Address) : OpcodeRow.Statement (.strs a) := rfl
theorem OpcodeRow.ldrf (a : Address) : OpcodeRow.Statement (.ldrf a) := rfl
theorem OpcodeRow.strf (a : Address) : OpcodeRow.Statement (.strf a) := rfl

end Sys2Proof.Laws
end

