-- ==== Sys2Proof/Machine/Display.lean ====
section
/-! DEFINITION. What the surrounding software does with words and states: the codec's bit and rendering
functions (30_encoding.md R69) and the dump file's layout (70_reset_and_hazards.md R189). The engine uses none
of it (00_scope.md R4 (c)). -/

namespace Sys2Proof.Machine

/-- Bit `i` of a word, LSB = 0 (R69, R6). -/
def bitAt (w : Word) (i : Fin 24) : Bool := w.getLsbD i.val

/-- The word with bit `i` set to `b` (R69). -/
def setBit (w : Word) (i : Fin 24) (b : Bool) : Word :=
  if b then w ||| (1#24 <<< i.val) else w &&& ~~~(1#24 <<< i.val)

/-- Fixed-width binary rendering: 24 digits, bit 23 first (R69). -/
def renderBinary (w : Word) : List Char :=
  (List.range 24).map fun k => if w.getLsbD (23 - k) then '1' else '0'

/-- The rendering with its leading zeros left out; the zero word keeps one digit (R69; log 30). -/
def renderCompact (w : Word) : List Char :=
  match (renderBinary w).dropWhile fun c => c == '0' with
  | [] => ['0']
  | digits => digits

/-- A dumped cell: three bytes, the most significant first (R189). -/
def wordBytes (w : Word) : List (BitVec 8) :=
  [w.extractLsb' 16 8, w.extractLsb' 8 8, w.extractLsb' 0 8]

/-- The dump's five header cells: IP, ACC, RA, SP, FP (R189). -/
def dumpHeader (s : State) : List (BitVec 8) :=
  [zextWord s.ip, s.acc, s.ra, s.sp, s.fp].flatMap wordBytes

/-- The dump of a state up to address `max` (R189). The spec does not say how an unset cell below `max` is
written (N14, U15): where there is one this answers `none` (log 29). -/
def dump (s : State) (max : Nat) : Option (List (BitVec 8)) :=
  ((List.range (max + 1)).mapM fun a => Memory.read s.mem a).map fun cells =>
    dumpHeader s ++ cells.flatMap wordBytes

end Sys2Proof.Machine
end

