-- ==== Sys2Proof/Tests/Slice0.lean ====
section
/-! SUPPORT. Tests and witnesses. Expected results are the rows D1 to D16, E1 to E13, T1, T2, A1 to A17, V1 to
V100, S7, S8 of 95_test_vectors.md, each named where it is used, or hand calculation from the rule named. A
witness shows values that meet the hypotheses of the statement whose name it carries. -/

namespace Sys2Proof.Tests

open Sys2Proof.Machine

/-! ### Helpers -/

/-- The start state of the vectors V1 to V97 (Single-step vectors: conventions), no cell set yet. -/
def start : State := { State.reset with ip := 0x10, x := 0x111111, y := 0x222222, ir := 0x333333 }

/-- The start state with IP moved and cells set. -/
def begin (ip : Address) (cells : Image) (s : State := start) : State := loadImage cells { s with ip := ip }

/-- A vector's "registers after": IP, ACC, X, Y, IR. -/
def row (o : Host.Outcome State Fault Refusal) : Option (Address × Word × Word × Word × Word) :=
  (steppedState o).map fun t => (t.ip, t.acc, t.x, t.y, t.ir)

theorem next_of_stepped {o : Host.Outcome State Fault Refusal} (h : (steppedState o).isSome = true) :
    ∃ t, o = .next t := by
  cases o with
  | next t => exact ⟨t, rfl⟩
  | fault e => cases h
  | refused q => cases h

theorem fault_of_reason {o : Host.Outcome State Fault Refusal} {e : Fault} (h : stopReason o = some e) :
    o = .fault e := by
  cases o with
  | next t => cases h
  | fault f => exact congrArg Host.Outcome.fault (Option.some.inj h)
  | refused q => cases h

theorem not_next_of_reason {o : Host.Outcome State Fault Refusal} {e : Fault} (h : stopReason o = some e) :
    ∀ t, o ≠ .next t := by
  intro t ht
  rw [ht] at h
  cases h

/-! ### The well-formedness checks (R61, R67) and the table law (R71 (d)) -/

theorem test_ldrs_too_wide_refused : (Instr.ldrs 0x10000#20).wellFormed = false := by decide
theorem test_strs_too_wide_refused : (Instr.strs 0x10000#20).wellFormed = false := by decide
theorem test_ldrf_too_wide_refused : (Instr.ldrf 0xFFFFF#20).wellFormed = false := by decide
theorem test_strf_too_wide_refused : (Instr.strf 0x10001#20).wellFormed = false := by decide
theorem test_table_unique : tableUnique instructionTable = true := by decide
theorem test_table_repeated_opcode_refused :
    tableUnique [⟨"LDC", 0x0, true, .ldc⟩, ⟨"LDV", 0x0, true, .ldv⟩] = false := by decide
theorem test_table_repeated_name_refused :
    tableUnique [⟨"LDC", 0x0, true, .ldc⟩, ⟨"LDC", 0x1, true, .ldv⟩] = false := by decide

/-! ### Decoding, each word from its fields: bits 23:20, then 19:0 (format S) or 19:16, 15:0 (format L), with
the opcode of R70 -/

theorem test_decode_ldc : decode (0x0#4 ++ 0xFFFFF#20 : Word) = .ok (.ldc 0xFFFFF#20) := by decide
theorem test_decode_ldv : decode (0x1#4 ++ 0x8A5C3#20 : Word) = .ok (.ldv 0x8A5C3#20) := by decide
theorem test_decode_stv : decode (0x2#4 ++ 0x00001#20 : Word) = .ok (.stv 0x00001#20) := by decide
theorem test_decode_add : decode (0x3#4 ++ 0x7FFFE#20 : Word) = .ok (.add 0x7FFFE#20) := by decide
theorem test_decode_and : decode (0x4#4 ++ 0x12345#20 : Word) = .ok (.and 0x12345#20) := by decide
theorem test_decode_or : decode (0x5#4 ++ 0x80000#20 : Word) = .ok (.or 0x80000#20) := by decide
theorem test_decode_xor : decode (0x6#4 ++ 0xF0F0F#20 : Word) = .ok (.xor 0xF0F0F#20) := by decide
theorem test_decode_eql : decode (0x7#4 ++ 0xABCDE#20 : Word) = .ok (.eql 0xABCDE#20) := by decide
theorem test_decode_jmp : decode (0x8#4 ++ 0x00005#20 : Word) = .ok (.jmp 0x00005#20) := by decide
theorem test_decode_jmn : decode (0x9#4 ++ 0xEDCBA#20 : Word) = .ok (.jmn 0xEDCBA#20) := by decide
theorem test_decode_ldiv : decode (0xA#4 ++ 0x00020#20 : Word) = .ok (.ldiv 0x00020#20) := by decide
theorem test_decode_stiv : decode (0xB#4 ++ 0xFF00F#20 : Word) = .ok (.stiv 0xFF00F#20) := by decide
theorem test_decode_call : decode (0xC#4 ++ 0x40000#20 : Word) = .ok (.call 0x40000#20) := by decide
theorem test_decode_adc : decode (0xD#4 ++ 0xFFFFF#20 : Word) = .ok (.adc 0xFFFFF#20) := by decide
theorem test_decode_halt : decode (0xF#4 ++ 0x0#4 ++ 0xFFFF#16 : Word) = .ok .halt := by decide
theorem test_decode_not : decode (0xF#4 ++ 0x1#4 ++ 0xBEEF#16 : Word) = .ok .not := by decide
theorem test_decode_rar : decode (0xF#4 ++ 0x2#4 ++ 0xABCD#16 : Word) = .ok .rar := by decide
theorem test_decode_ret : decode (0xF#4 ++ 0x3#4 ++ 0x0000#16 : Word) = .ok .ret := by decide
theorem test_decode_ldra : decode (0xF#4 ++ 0x4#4 ++ 0x0001#16 : Word) = .ok .ldra := by decide
theorem test_decode_stra : decode (0xF#4 ++ 0x5#4 ++ 0x8000#16 : Word) = .ok .stra := by decide
theorem test_decode_ldsp : decode (0xF#4 ++ 0x6#4 ++ 0x7FFF#16 : Word) = .ok .ldsp := by decide
theorem test_decode_stsp : decode (0xF#4 ++ 0x7#4 ++ 0x1234#16 : Word) = .ok .stsp := by decide
theorem test_decode_ldfp : decode (0xF#4 ++ 0x8#4 ++ 0x5555#16 : Word) = .ok .ldfp := by decide
theorem test_decode_stfp : decode (0xF#4 ++ 0x9#4 ++ 0xAAAA#16 : Word) = .ok .stfp := by decide
theorem test_decode_ldrs : decode (0xF#4 ++ 0xA#4 ++ 0x1234#16 : Word) = .ok (.ldrs 0x01234#20) := by decide
theorem test_decode_strs : decode (0xF#4 ++ 0xB#4 ++ 0x8001#16 : Word) = .ok (.strs 0x08001#20) := by decide
theorem test_decode_ldrf : decode (0xF#4 ++ 0xC#4 ++ 0xFFFE#16 : Word) = .ok (.ldrf 0x0FFFE#20) := by decide
theorem test_decode_strf : decode (0xF#4 ++ 0xD#4 ++ 0xFFFF#16 : Word) = .ok (.strf 0x0FFFF#20) := by decide

/-- D7, D8, D15, D16. -/
theorem test_decode_unassigned :
    decode 0xE00000#24 = .error (.instructionNotFound 14) ∧ decode 0xEFFFFF#24 = .error (.instructionNotFound 14) ∧
    decode 0xFE0000#24 = .error (.instructionNotFound 254) ∧
    decode 0xFFFFFF#24 = .error (.instructionNotFound 255) := by decide

/-- E7, E8, E12, E13: over-wide arguments are masked. -/
theorem test_combine_masks :
    combineInstruction 13 2097151 = 0xDFFFFF#24 ∧ combineInstruction 1 1048576 = 0x100000#24 ∧
    combineInstruction 250 65537 = 0xFA0001#24 ∧ combineInstruction 253 65536 = 0xFD0000#24 := by decide

/-- E6, E10, E11. -/
theorem test_encode :
    encode (.adc 0xFFFFF#20) = 0xDFFFFF#24 ∧ encode .ret = 0xF30000#24 ∧ encode (.ldrs 0xFFFF#20) = 0xFAFFFF#24 := by
  decide

theorem test_decodeTableWord :
    decodeTableWord 24 0x1FFFFF = some (.ldv 0xFFFFF#20) ∧ decodeTableWord 24 0xE00000 = none ∧
    decodeTableWord 32 0x1000014 = none := by decide

/-! ### Values (T1, T2) -/

theorem test_coerceToValue :
    coerceToValue 8388608 = 0x800000#24 ∧ coerceToValue (-8388609) = 0x7FFFFF#24 ∧
    coerceToValue (-1) = 0xFFFFFF#24 ∧ coerceToValue 33554431 = 0xFFFFFF#24 ∧
    coerceToValue (-16777216) = 0#24 ∧ coerceToValue 15728640 = 0xF00000#24 := by decide

theorem test_coerceToAddress :
    coerceToAddress 0 = .ok 0#20 ∧ coerceToAddress 1048575 = .ok 0xFFFFF#20 ∧
    coerceToAddress 1048576 = .error (.overflow 1048576) ∧ coerceToAddress (-1) = .error (.overflow (-1)) ∧
    coerceToAddress (-8388608) = .error (.overflow (-8388608)) := by decide

/-! ### Single steps: at most two vectors an instruction -/

/-- V1. -/
theorem test_ldc :
    row (step (begin 0x00010 [(0x00010, 0x000014)] { start with acc := 0x123456 })) =
      some (0x00011, 0x000014, 0x000000, 0x000000, 0x000014) := by decide

/-- V2. -/
theorem test_ldc_unsigned :
    row (step (begin 0x00010 [(0x00010, 0x0FFFFF)])) =
      some (0x00011, 0x0FFFFF, 0x000000, 0x000000, 0x0FFFFF) := by decide

/-- V4. -/
theorem test_ldv :
    row (step (begin 0x00010 [(0x00010, 0x100020), (0x00020, 0xFFFFFE)])) =
      some (0x00011, 0xFFFFFE, 0x000000, 0x000000, 0x100020) := by decide

/-- V5. -/
theorem test_ldv_unset :
    stopReason (step (begin 0x00010 [(0x00010, 0x100020)])) =
      some (.uninitializedMemory 32) := by decide

/-- V7. -/
theorem test_stv :
    let s := (begin 0x00010 [(0x00010, 0x200014)] { start with acc := 0x000014 })
    row (step s) = some (0x00011, 0x000014, 0x000000, 0x000000, 0x200014) ∧
    ((steppedState (step s)).bind fun t => readCell t 0x00014) = some 0x000014 := by decide

/-- V9. -/
theorem test_stv_own_cell :
    let s := (begin 0x00010 [(0x00010, 0x200010)] { start with acc := 0x00002A })
    row (step s) = some (0x00011, 0x00002A, 0x000000, 0x000000, 0x200010) ∧
    ((steppedState (step s)).bind fun t => readCell t 0x00010) = some 0x00002A := by decide

/-- V32. -/
theorem test_add :
    row (step (begin 0x00010 [(0x00010, 0x300014), (0x00014, 0x000014)] { start with acc := 0x000014 })) =
      some (0x00011, 0x000028, 0x000014, 0x000014, 0x300014) := by decide

/-- V33. -/
theorem test_add_wraps :
    row (step (begin 0x00010 [(0x00010, 0x300020), (0x00020, 0x7FFFFF)] { start with acc := 0x7FFFFF })) =
      some (0x00011, 0xFFFFFE, 0x7FFFFF, 0x7FFFFF, 0x300020) := by decide

/-- V45. -/
theorem test_and :
    row (step (begin 0x00010 [(0x00010, 0x400020), (0x00020, 0xFF00FF)] { start with acc := 0xF0F0F0 })) =
      some (0x00011, 0xF000F0, 0x000000, 0x000000, 0x400020) := by decide

/-- V49. -/
theorem test_and_unset :
    stopReason (step (begin 0x00010 [(0x00010, 0x400020)] { start with acc := 0xABCDEF })) =
      some (.uninitializedMemory 32) := by decide

/-- V46. -/
theorem test_or :
    row (step (begin 0x00010 [(0x00010, 0x500020), (0x00020, 0xFF00FF)] { start with acc := 0xF0F0F0 })) =
      some (0x00011, 0xFFF0FF, 0x000000, 0x000000, 0x500020) := by decide

/-- V47. -/
theorem test_xor :
    row (step (begin 0x00010 [(0x00010, 0x600020), (0x00020, 0xFF00FF)] { start with acc := 0xF0F0F0 })) =
      some (0x00011, 0x0FF00F, 0x000000, 0x000000, 0x600020) := by decide

/-- V48. -/
theorem test_xor_self :
    row (step (begin 0x00010 [(0x00010, 0x600020), (0x00020, 0xABCDEF)] { start with acc := 0xABCDEF })) =
      some (0x00011, 0x000000, 0x000000, 0x000000, 0x600020) := by decide

/-- V60. -/
theorem test_eql_equal :
    row (step (begin 0x00010 [(0x00010, 0x700020), (0x00020, 0x000005)] { start with acc := 0x000005 })) =
      some (0x00011, 0xFFFFFF, 0x000000, 0x000000, 0x700020) := by decide

/-- V62. -/
theorem test_eql_unequal :
    row (step (begin 0x00010 [(0x00010, 0x700020), (0x00020, 0x000000)] { start with acc := 0x800000 })) =
      some (0x00011, 0x000000, 0x000000, 0x000000, 0x700020) := by decide

/-- V67. -/
theorem test_jmp :
    row (step (begin 0x00010 [(0x00010, 0x8FFFFF)])) =
      some (0xFFFFF, 0x000000, 0x000000, 0x000000, 0x8FFFFF) := by decide

/-- V90. -/
theorem test_jmp_at_last_address :
    stopReason (step (begin 0xFFFFF [(0xFFFFF, 0x800000)])) =
      some (.overflow 1048576) := by decide

/-- V70. -/
theorem test_jmn_taken :
    row (step (begin 0x00010 [(0x00010, 0x900009)] { start with acc := 0x800000 })) =
      some (0x00009, 0x800000, 0x000000, 0x000000, 0x900009) := by decide

/-- V71. -/
theorem test_jmn_not_taken :
    row (step (begin 0x00010 [(0x00010, 0x900009)] { start with acc := 0x7FFFFF })) =
      some (0x00011, 0x7FFFFF, 0x000000, 0x000000, 0x900009) := by decide

/-- V10. -/
theorem test_ldiv :
    row (step (begin 0x00010 [(0x00010, 0xA00020), (0x00020, 0x000030), (0x00030, 0x00002A)])) =
      some (0x00011, 0x00002A, 0x000000, 0x000000, 0xA00020) := by decide

/-- V13. -/
theorem test_ldiv_pointer_too_large :
    stopReason (step (begin 0x00010 [(0x00010, 0xA00020), (0x00020, 0x100000)])) =
      some (.overflow 1048576) := by decide

/-- V17. -/
theorem test_stiv_pointer_cell :
    let s := (begin 0x00010 [(0x00010, 0xB00020), (0x00020, 0x000020)] { start with acc := 0x000007 })
    row (step s) = some (0x00011, 0x000007, 0x000000, 0x000000, 0xB00020) ∧
    ((steppedState (step s)).bind fun t => readCell t 0x00020) = some 0x000007 := by decide

/-- V19. -/
theorem test_stiv_negative_pointer :
    stopReason (step (begin 0x00010 [(0x00010, 0xB00020), (0x00020, 0x800000)] { start with acc := 0x000007 })) =
      some (.overflow (-8388608)) := by decide

/-- V72. -/
theorem test_call :
    let s := (begin 0x00010 [(0x00010, 0xC00005)] { start with ra := 0x000099 })
    row (step s) = some (0x00005, 0x000000, 0x000000, 0x000000, 0xC00005) ∧
    (steppedState (step s)).map State.ra = some 0x000011 := by decide

/-- V73. -/
theorem test_call_itself :
    let s := (begin 0x00010 [(0x00010, 0xC00010)])
    row (step s) = some (0x00010, 0x000000, 0x000000, 0x000000, 0xC00010) ∧
    (steppedState (step s)).map State.ra = some 0x000011 := by decide

/-- V41. -/
theorem test_adc_unsigned :
    row (step (begin 0x00010 [(0x00010, 0xDFFFFF)] { start with acc := 0x000000 })) =
      some (0x00011, 0x0FFFFF, 0x000000, 0x0FFFFF, 0xDFFFFF) := by decide

/-- V44. -/
theorem test_adc_wraps :
    row (step (begin 0x00010 [(0x00010, 0xDFFFFF)] { start with acc := 0x7FFFFF })) =
      some (0x00011, 0x8FFFFE, 0x7FFFFF, 0x0FFFFF, 0xDFFFFF) := by decide

/-- V88. -/
theorem test_halt_argument_ignored :
    stopReason (step (begin 0x00010 [(0x00010, 0xF0FFFF)] { start with acc := 0x000028 })) =
      some .programHalt := by decide

/-- V89. -/
theorem test_halt_at_last_address :
    stopReason (step (begin 0xFFFFF [(0xFFFFF, 0xF00000)])) =
      some .programHalt := by decide

/-- V53. -/
theorem test_not_argument_ignored :
    row (step (begin 0x00010 [(0x00010, 0xF1BEEF)] { start with acc := 0x7FFFFF })) =
      some (0x00011, 0x800000, 0x000000, 0x000000, 0xF1BEEF) := by decide

/-- V54. -/
theorem test_rar_carries_round :
    row (step (begin 0x00010 [(0x00010, 0xF20000)] { start with acc := 0x000003 })) =
      some (0x00011, 0x800001, 0x000000, 0x000000, 0xF20000) := by decide

/-- V56. -/
theorem test_rar_no_sign :
    row (step (begin 0x00010 [(0x00010, 0xF20000)] { start with acc := 0x800000 })) =
      some (0x00011, 0x400000, 0x000000, 0x000000, 0xF20000) := by decide

/-- V78. -/
theorem test_ret :
    row (step (begin 0x00010 [(0x00010, 0xF3FFFF)] { start with ra := 0x0FFFFF })) =
      some (0xFFFFF, 0x000000, 0x000000, 0x000000, 0xF3FFFF) := by decide

/-- V76. -/
theorem test_ret_negative :
    stopReason (step (begin 0x00010 [(0x00010, 0xF30000)] { start with ra := 0xFFFFFF })) =
      some (.overflow (-1)) := by decide

/-- V84. -/
theorem test_ldra :
    row (step (begin 0x00010 [(0x00010, 0xF40000)] { start with ra := 0x000003 })) =
      some (0x00011, 0x000003, 0x000000, 0x000000, 0xF40000) := by decide

/-- V86. -/
theorem test_stra_unchecked :
    let s := (begin 0x00010 [(0x00010, 0xF50000)] { start with acc := 0x800000 })
    row (step s) = some (0x00011, 0x800000, 0x000000, 0x000000, 0xF50000) ∧
    (steppedState (step s)).map State.ra = some 0x800000 := by decide

/-- V79. -/
theorem test_ldsp :
    row (step (begin 0x00010 [(0x00010, 0xF60000)] { start with sp := 0x000100 })) =
      some (0x00011, 0x000100, 0x000000, 0x000000, 0xF60000) := by decide

/-- V81. -/
theorem test_stsp_unchecked :
    let s := (begin 0x00010 [(0x00010, 0xF70000)] { start with acc := 0xFFFFFF })
    row (step s) = some (0x00011, 0xFFFFFF, 0x000000, 0x000000, 0xF70000) ∧
    (steppedState (step s)).map State.sp = some 0xFFFFFF := by decide

/-- V82. -/
theorem test_ldfp :
    row (step (begin 0x00010 [(0x00010, 0xF80000)] { start with fp := 0x000200 })) =
      some (0x00011, 0x000200, 0x000000, 0x000000, 0xF80000) := by decide

/-- V83. -/
theorem test_stfp :
    let s := (begin 0x00010 [(0x00010, 0xF90000)] { start with acc := 0x000200 })
    row (step s) = some (0x00011, 0x000200, 0x000000, 0x000000, 0xF90000) ∧
    (steppedState (step s)).map State.fp = some 0x000200 := by decide

/-- V21. -/
theorem test_ldrs_negative_base :
    row (step (begin 0x00010 [(0x00010, 0xFA0001), (0x00000, 0x000055)] { start with sp := 0xFFFFFF })) =
      some (0x00011, 0x000055, 0x000000, 0x000000, 0xFA0001) := by decide

/-- V23. -/
theorem test_ldrs_no_wrap :
    stopReason (step (begin 0x00010 [(0x00010, 0xFA0001)] { start with sp := 0x0FFFFF })) =
      some (.overflow 1048576) := by decide

/-- V26. -/
theorem test_strs :
    let s := (begin 0x00010 [(0x00010, 0xFB0000)] { start with acc := 0x000005, sp := 0x000100 })
    row (step s) = some (0x00011, 0x000005, 0x000000, 0x000000, 0xFB0000) ∧
    ((steppedState (step s)).bind fun t => readCell t 0x00100) = some 0x000005 := by decide

/-- V27. -/
theorem test_strs_no_wrap :
    stopReason (step (begin 0x00010 [(0x00010, 0xFBFFFF)] { start with acc := 0x000005, sp := 0x0F0001 })) =
      some (.overflow 1048576) := by decide

/-- V28. -/
theorem test_ldrf :
    row (step (begin 0x00010 [(0x00010, 0xFC0001), (0x00201, 0xFFFFFF)] { start with fp := 0x000200 })) =
      some (0x00011, 0xFFFFFF, 0x000000, 0x000000, 0xFC0001) := by decide

/-- V29. -/
theorem test_ldrf_negative :
    stopReason (step (begin 0x00010 [(0x00010, 0xFC0000)] { start with fp := 0x800000 })) =
      some (.overflow (-8388608)) := by decide

/-- V30. -/
theorem test_strf :
    let s := (begin 0x00010 [(0x00010, 0xFD0003)] { start with acc := 0x00000C, fp := 0x000200 })
    row (step s) = some (0x00011, 0x00000C, 0x000000, 0x000000, 0xFD0003) ∧
    ((steppedState (step s)).bind fun t => readCell t 0x00203) = some 0x00000C := by decide

/-- V31. -/
theorem test_strf_no_wrap :
    stopReason (step (begin 0x00010 [(0x00010, 0xFD0000)] { start with acc := 0x00000C, fp := 0x100000 })) =
      some (.overflow 1048576) := by decide

/-- V95. -/
theorem test_not_found_before_overflow :
    stopReason (step (begin 0xFFFFF [(0xFFFFF, 0xEFFFFF)])) =
      some (.instructionNotFound 14) := by decide

/-- V97. -/
theorem test_data_word_not_found :
    stopReason (step (begin 0x00010 [(0x00010, 0xFFFFFF)])) =
      some (.instructionNotFound 255) := by decide

/-- V93: IP just below the last address. -/
theorem test_last_but_one_address :
    row (step (begin 0xFFFFE [(0xFFFFE, 0x000001)])) = some (0xFFFFF, 0x000001, 0, 0, 0x000001) := by decide

/-- V98. -/
theorem test_reset_first_step : stopReason (step State.reset) = some (.uninitializedMemory 0) := by decide

theorem test_withFetchWord :
    row (step (State.reset.withFetchWord 24 0xD00007)) = some (1, 7, 0, 7, 0xD00007) := by decide

/-- V87, V100: a halting request changes nothing, X, Y and IR included. -/
theorem test_halt_keeps_state :
    (requestStep (begin 0x10 [(0x10, 0xF00000)])).2 = begin 0x10 [(0x10, 0xF00000)] ∧
    isFinished (begin 0x10 [(0x10, 0xF00000)]) = true := by decide

/-- R166. -/
theorem test_cause_codes :
    causeCode (step (begin 0x10 [(0x10, 0xF00000)])) = some 1 ∧ causeCode (step State.reset) = some 2 ∧
    causeCode (step (begin 0xFFFFF [(0xFFFFF, 0x800000)])) = some 3 ∧
    causeCode (step (begin 0x10 [(0x10, 0xE00000)])) = some 4 ∧
    causeCode (step (begin 0x10 [(0x10, 0x000000)])) = some 0 := by decide

/-! ### The assembler (A2 to A17, S7, S8) -/

/-- The image a text assembles to. -/
def imageOf (text : String) : Option Image := (assemble text.toList).toOption.bind Assembly.image

/-- The diagnostics of a text that yields no image. -/
def diagnosticsOf (text : String) : Option (List Diagnostic) :=
  (assemble text.toList).toOption.map Assembly.diagnostics

/-- The error that ends assembling a text. -/
def errorOf (text : String) : Option AssemblerError :=
  match assemble text.toList with
  | .ok _ => none
  | .error e => some e

theorem test_assemble_any_case : imageOf "ldc 20" = some [(0, 0x000014)] := by decide
theorem test_assemble_no_argument : imageOf "HALT" = some [(0, 0xF00000)] := by decide
theorem test_assemble_missing_argument : errorOf "LDC" = some .malformedArgument := by decide
theorem test_assemble_unknown_mnemonic : errorOf "FOO 1" = some .notFound := by decide
theorem test_assemble_argument_not_taken : errorOf "HALT 5" = some .argumentNotTaken := by decide
theorem test_assemble_argument_range :
    imageOf "LDC 1048576" = none ∧ diagnosticsOf "LDC -1" = some [.argumentRange] := by decide
theorem test_assemble_data_words :
    imageOf "-8388608" = some [(0, 0x800000)] ∧ diagnosticsOf "8388608" = some [.dataRange] := by decide
theorem test_assemble_masks_displacement : imageOf "LDRS 65537" = some [(0, 0xFA0001)] := by decide
theorem test_assemble_unknown_label :
    imageOf "JMP nowhere" = none ∧ diagnosticsOf "JMP nowhere" = some [.unknownLabel] := by decide
theorem test_assemble_label : imageOf "x: 5\nLDV x" = some [(0, 5), (1, 0x100000)] := by decide
theorem test_assemble_comment : imageOf "; note\nHALT" = some [(0, 0xF00000)] := by decide
theorem test_assemble_duplicate_label :
    imageOf "a: 1\na: 2\nLDV a" = some [(0, 1), (1, 2), (2, 0x100000)] ∧
    diagnosticsOf "a: 1\na: 2\nLDV a" = some [.duplicateLabel] := by decide
theorem test_assemble_forward_reference : imageOf "JMP hey\nhey:" = some [(0, 0x800001)] := by decide
theorem test_assemble_backward_reference :
    imageOf "hey: 0\nJMP hey" = some [(0, 0), (1, 0x800000)] := by decide

/-! ### The host's history (R190 to R195) -/

/-- A history after one step, on a program of one LDC 1. -/
def oneStep : History :=
  match (History.start (boot [(0, 0x000001)]) 2).nextStep with
  | .next h => h
  | .fault _ => History.start State.reset 2
  | .refused _ => History.start State.reset 2

theorem test_history_back :
    oneStep.current.acc = 1 ∧ oneStep.previousStep.current.acc = 0 ∧
    oneStep.previousStep.engine.current.acc = 1 ∧ oneStep.reset.buffer.length = 1 := by decide

/-! ### Rendering and the dump (R69, R189) -/

theorem test_render :
    renderBinary 0xF00005#24 = "111100000000000000000101".toList ∧ renderCompact 0x000005#24 = "101".toList ∧
    setBit 0x000005#24 2 false = 1#24 ∧ bitAt 0x800000#24 23 = true := by decide

/-- Header IP, ACC, RA, SP, FP, then cell 0; cell 1 is unset. -/
theorem test_dump :
    dump (loadImage [(0, 0x123456)] { start with acc := 0xABCDEF }) 0 =
      some [0x00, 0x00, 0x10, 0xAB, 0xCD, 0xEF, 0, 0, 0, 0, 0, 0, 0, 0, 0, 0x12, 0x34, 0x56] ∧
    dump (loadImage [(0, 0x123456)] start) 1 = none := by decide

/-! ### Witnesses: encoding -/

theorem witness_EncodeThenDecodeGivesInstruction :
    (Instr.ldrs 0xFFFF#20).wellFormed = true ∧ (Instr.adc 0xFFFFF#20).wellFormed = true ∧
    Instr.halt.wellFormed = true := by decide

theorem witness_DecodeThenEncodeGivesWord :
    (decode 0xFDFFFF#24 = .ok (.strf 0xFFFF#20) ∧ argumentOf (.strf 0xFFFF#20) = some 0xFFFF#20) ∧
    (decode 0x0FFFFF#24 = .ok (.ldc 0xFFFFF#20) ∧ argumentOf (.ldc 0xFFFFF#20) = some 0xFFFFF#20) ∧
    (decode 0xF2ABCD#24 = .ok .rar ∧ argumentOf .rar = none) := by decide

/-- Both ranges of opcodes at their ends, with an argument one bit too wide. -/
theorem witness_CombineThenExtractRecoversFields :
    extractOpcode (combineInstruction 0 0x100001) = 0 ∧ extractArgument (combineInstruction 0 0x100001) = 1 ∧
    extractOpcode (combineInstruction 0xE 0x100001) = 0xE ∧
    extractOpcode (combineInstruction 0xF0 0x10001) = 0xF0 ∧
    extractOpcode (combineInstruction 0xFF 0x10001) = 0xFF ∧
    extractArgument (combineInstruction 0xFF 0x10001) = 1 := by decide

theorem witness_KnownInstructionDependsOnOpcodeAlone :
    extractOpcode 0x100000#24 = extractOpcode 0x1FFFFF#24 ∧ knownInstruction 0x1FFFFF#24 = true ∧
    knownInstruction 0xE00000#24 = false := by decide

/-! ### Witnesses: the step -/

/-- The start state of V1, of V5 and of V94. -/
def ldcState : State := begin 0x10 [(0x10, 0x000014)]
def ldvUnsetState : State := begin 0x10 [(0x10, 0x100020)]
def unassignedState : State := begin 0x10 [(0x10, 0xE00000)]
/-- HALT at the last address (V89). -/
def haltState : State := begin 0xFFFFF [(0xFFFFF, 0xF0FFFF)]
/-- STV 17 at 16 with HALT's word in ACC (V8). -/
def stvNextState : State := begin 0x10 [(0x10, 0x200011)] { start with acc := 0xF00000 }

theorem witness_StepRunsDecodedInstruction :
    Memory.read ldcState.mem ldcState.ip.toNat = some 0x000014#24 ∧
    decode 0x000014#24 = .ok (.ldc 0x14#20) := by decide

theorem witness_FetchReadsCellAtIpIntoIr :
    Memory.read State.reset.mem State.reset.ip.toNat = none ∧
    Memory.read ldcState.mem ldcState.ip.toNat = some 0x000014#24 ∧ (∃ t, step ldcState = .next t) :=
  ⟨by decide, by decide, next_of_stepped (by decide)⟩

theorem witness_TableResolvesFetchedWord :
    Memory.read unassignedState.mem unassignedState.ip.toNat = some 0xE00000#24 ∧
    (∀ r ∈ instructionTable, r.opcode ≠ extractOpcode 0xE00000#24) ∧
    Memory.read ldcState.mem ldcState.ip.toNat = some 0x000014#24 ∧
    (∃ r ∈ instructionTable, r.opcode = extractOpcode 0x000014#24) := by decide

theorem witness_HaltWordHaltsAndCommitsNothing :
    Memory.read haltState.mem haltState.ip.toNat = some 0xF0FFFF#24 ∧
    (0xF0FFFF#24).extractLsb' 16 8 = 0xF0#8 := by decide

theorem witness_OnlyHaltRaisesProgramHalt :
    step haltState = .fault .programHalt ∧ decode 0xF0FFFF#24 = .ok .halt :=
  ⟨fault_of_reason (by decide), by decide⟩

theorem witness_StoppedEngineRepeatsForEver :
    (∀ t, step State.reset ≠ .next t) ∧ (∀ t, step haltState ≠ .next t) :=
  ⟨not_next_of_reason (e := .uninitializedMemory 0) (by decide), not_next_of_reason (e := .programHalt) (by decide)⟩

theorem witness_LastAddressOverflows :
    Instr.jmp 0 ≠ .halt ∧ ({ start with ip := 0xFFFFF } : State).ip = 0xFFFFF#20 := by decide

/-- Each failure of the statement's clauses: HALT, an unset argument, LDIV's unset target (V14), LDRF's unset
cell, stage 4, a pointer word (V12), base plus displacement (V23, V27), RA (V75). -/
theorem witness_FailuresOfEachInstruction :
    exec .halt start = .fault .programHalt ∧
    exec (.ldv 0x20) start = .fault (.uninitializedMemory 0x20) ∧
    exec (.ldiv 0x20) (begin 0x10 [(0x20, 0x000030)]) = .fault (.uninitializedMemory 0x30) ∧
    exec (.ldrf 0xFFFF) { start with fp := 0x0F0000 } = .fault (.uninitializedMemory 0xFFFFF) ∧
    exec (.jmp 0) { start with ip := 0xFFFFF } = .fault (.overflow 0x100000) ∧
    exec (.ldiv 0x20) (begin 0x10 [(0x20, 0xFFFFFF)]) = .fault (.overflow (-1)) ∧
    exec (.ldrs 1) { start with sp := 0x0FFFFF } = .fault (.overflow 1048576) ∧
    exec (.strs 65535) { start with sp := 0x0F0001 } = .fault (.overflow 1048576) ∧
    exec .ret { start with ra := 0x100000 } = .fault (.overflow 1048576) :=
  ⟨fault_of_reason (by decide), fault_of_reason (by decide), fault_of_reason (by decide),
   fault_of_reason (by decide), fault_of_reason (by decide), fault_of_reason (by decide),
   fault_of_reason (by decide), fault_of_reason (by decide), fault_of_reason (by decide)⟩

/-! ### Witnesses: memory -/

theorem witness_StepKeepsMemoryInvariant : stvNextState.Inv ∧ ∃ t, step stvNextState = .next t :=
  ⟨by decide, next_of_stepped (by decide)⟩

theorem witness_RunsFromLoadedImagesKeepInvariant :
    ∃ t, Steps (boot [(0, 0x200005)]) t ∧ readCell t 5 = some 0 := by
  obtain ⟨t, ht⟩ := next_of_stepped (o := step (boot [(0, 0x200005)])) (by decide)
  refine ⟨t, .tail (.refl _) ht, ?_⟩
  have h : (steppedState (step (boot [(0, 0x200005)]))).bind (fun u => readCell u 5) = some 0 := by decide
  rw [ht] at h
  exact h

/-- A store through each addressing mode: argument, pointer to the last address, SP = -1 with displacement 1,
FP + 65535. -/
theorem witness_StoresChangeOneCell :
    (∃ t, exec (.stv 0xFFFFF) start = .next t) ∧
    (indirectAddress (begin 0x10 [(0x20, 0x0FFFFF)]).advanced 0x20 = .ok 0xFFFFF#20 ∧
      ∃ t, exec (.stiv 0x20) (begin 0x10 [(0x20, 0x0FFFFF)]) = .next t) ∧
    (relativeAddress 0xFFFFFF#24 1 = .ok 0#20 ∧
      ∃ t, exec (.strs 1) { start with sp := 0xFFFFFF } = .next t) ∧
    (relativeAddress 0x0F0000#24 0xFFFF = .ok 0xFFFFF#20 ∧
      ∃ t, exec (.strf 0xFFFF) { start with fp := 0x0F0000 } = .next t) :=
  ⟨next_of_stepped (by decide), ⟨by decide, next_of_stepped (by decide)⟩,
   ⟨by decide, next_of_stepped (by decide)⟩, ⟨by decide, next_of_stepped (by decide)⟩⟩

theorem witness_NonStoringInstructionsLeaveMemory :
    (Instr.ldv 0x10).stores = false ∧ ∃ t, exec (.ldv 0x10) ldcState = .next t :=
  ⟨by decide, next_of_stepped (by decide)⟩

/-- A set cell, and an unset one that the step sets. -/
theorem witness_SetCellsStaySet :
    ∃ t, step stvNextState = .next t ∧ Memory.read stvNextState.mem 0x10 = some 0x200011#24 ∧
      Memory.read stvNextState.mem 0x11 = none ∧ Memory.read t.mem 0x11 = some 0xF00000#24 := by
  obtain ⟨t, ht⟩ := next_of_stepped (o := step stvNextState) (by decide)
  refine ⟨t, ht, by decide, by decide, ?_⟩
  have h : (steppedState (step stvNextState)).bind (fun u => Memory.read u.mem 0x11) = some 0xF00000#24 := by decide
  rw [ht] at h
  exact h

theorem witness_CanonicalMemoriesWithEqualReadsAreEqual :
    Memory.wf [(3, 7#24), (0xFFFFF, 0#24)] ∧
    ∀ a, Memory.read [(3, 7#24), (0xFFFFF, 0#24)] a =
      Memory.read (Memory.write [(0xFFFFF, 0#24)] 3 7#24) a :=
  ⟨by decide, fun _ => rfl⟩

/-- HALT's word stored over the next instruction by STIV, STRS (SP = -1) and STRF. -/
def stivNextState : State := begin 0x10 [(0x10, 0xB00020), (0x20, 0x000011)] { start with acc := 0xF00000 }
def strsNextState : State :=
  begin 0x10 [(0x10, 0xFB0012)] { start with acc := 0xF00000, sp := 0xFFFFFF }
def strfNextState : State :=
  begin 0x10 [(0x10, 0xFD0001)] { start with acc := 0xF00000, fp := 0x000010 }

/-- One state for each storing instruction; the address stored to is the next instruction's in each. -/
theorem witness_StoredWordIsExecutedNext :
    (Memory.read stvNextState.mem stvNextState.ip.toNat = some 0x200011#24 ∧
      decode 0x200011#24 = .ok (.stv 0x11) ∧ storeAddress (.stv 0x11) stvNextState = some 0x11 ∧
      ∃ t, step stvNextState = .next t) ∧
    (Memory.read stivNextState.mem stivNextState.ip.toNat = some 0xB00020#24 ∧
      decode 0xB00020#24 = .ok (.stiv 0x20) ∧ storeAddress (.stiv 0x20) stivNextState = some 0x11 ∧
      ∃ t, step stivNextState = .next t) ∧
    (Memory.read strsNextState.mem strsNextState.ip.toNat = some 0xFB0012#24 ∧
      decode 0xFB0012#24 = .ok (.strs 0x12) ∧ storeAddress (.strs 0x12) strsNextState = some 0x11 ∧
      ∃ t, step strsNextState = .next t) ∧
    (Memory.read strfNextState.mem strfNextState.ip.toNat = some 0xFD0001#24 ∧
      decode 0xFD0001#24 = .ok (.strf 1) ∧ storeAddress (.strf 1) strfNextState = some 0x11 ∧
      ∃ t, step strfNextState = .next t) ∧
    start.ip + 1 = 0x11#20 ∧ decode 0xF00000#24 = .ok .halt :=
  ⟨⟨by decide, by decide, by decide, next_of_stepped (by decide)⟩,
   ⟨by decide, by decide, by decide, next_of_stepped (by decide)⟩,
   ⟨by decide, by decide, by decide, next_of_stepped (by decide)⟩,
   ⟨by decide, by decide, by decide, next_of_stepped (by decide)⟩, by decide, by decide⟩

/-! ### Witnesses: registers -/

theorem witness_AccumulatorReadersAndWriters :
    ((Instr.stv 0).writesAcc = false ∧ ∃ t, exec (.stv 0) start = .next t) ∧
    ((Instr.ldc 0).readsAcc = false ∧ (Instr.ldc 0).writesAcc = true) ∧
    ((Instr.jmp 0).readsAcc = false ∧ (Instr.jmp 0).writesAcc = false ∧
      ∃ t, exec (.jmp 0) start = .next t) ∧
    ((Instr.ldv 0).readsAcc = false ∧ exec (.ldv 0) start = .fault (.uninitializedMemory 0)) :=
  ⟨⟨by decide, next_of_stepped (by decide)⟩, by decide,
   ⟨by decide, by decide, next_of_stepped (by decide)⟩, ⟨by decide, fault_of_reason (by decide)⟩⟩

theorem witness_ShadowsZeroUnlessAddition :
    (∃ t, exec (.ldc 1) start = .next t) ∧ (Instr.ldc 1).writesShadows = false :=
  ⟨next_of_stepped (by decide), by decide⟩

theorem witness_InstructionRegisterHoldsLastCommittedWord :
    (Memory.read ldcState.mem ldcState.ip.toNat = some 0x000014#24 ∧ ∃ t, step ldcState = .next t) ∧
    (∀ t, step ldvUnsetState ≠ .next t) ∧ (∃ t, exec (.ldc 1) start = .next t) ∧
    exec (.ldv 0) start = .fault (.uninitializedMemory 0) :=
  ⟨⟨by decide, next_of_stepped (by decide)⟩, not_next_of_reason (e := .uninitializedMemory 0x20) (by decide),
   next_of_stepped (by decide), fault_of_reason (by decide)⟩

/-- Each pointer register changed by each of its writers. -/
theorem witness_PointerRegisterWriters :
    (steppedState (exec (.call 5) start)).map State.ra = some 0x11 ∧
    (steppedState (exec .stra { start with acc := 7 })).map State.ra = some 7 ∧
    (steppedState (exec .stsp { start with acc := 7 })).map State.sp = some 7 ∧
    (steppedState (exec .stfp { start with acc := 7 })).map State.fp = some 7 ∧
    start.ra = 0 ∧ start.sp = 0 ∧ start.fp = 0 := by decide

/-- Each arm of the statement: JMP, JMN both ways, CALL, RET to the last address, any other; IP up to 0xFFFFE. -/
theorem witness_InstructionPointerAfterCommittedStep :
    (∃ t, exec (.jmp 0xFFFFF) { start with ip := 0xFFFFE } = .next t) ∧
    (∃ t, exec (.jmn 9) { start with acc := 0x800000 } = .next t) ∧
    (∃ t, exec (.jmn 9) { start with acc := 0x7FFFFF } = .next t) ∧
    (∃ t, exec (.call 0) { start with ip := 0xFFFFE } = .next t) ∧
    (∃ t, exec .ret { start with ra := 0x0FFFFF } = .next t) ∧
    (∃ t, exec (.ldc 1) { start with ip := 0xFFFFE } = .next t) :=
  ⟨next_of_stepped (by decide), next_of_stepped (by decide), next_of_stepped (by decide),
   next_of_stepped (by decide), next_of_stepped (by decide), next_of_stepped (by decide)⟩

/-! ### Witnesses: values -/

theorem witness_CoerceToValueReducesModuloWord :
    sval 0x800000#24 % 2 ^ 24 = (8388608 : Int) % 2 ^ 24 ∧
    (-(2 ^ 23) ≤ (-8388608 : Int) ∧ (-8388608 : Int) < 2 ^ 23) ∧
    (-(2 ^ 23) ≤ (8388607 : Int) ∧ (8388607 : Int) < 2 ^ 23) := by decide

theorem witness_CoerceToAddressChecksDomain :
    ((0 : Int) ≤ 0 ∧ (0 : Int) < 2 ^ 20) ∧ ((0 : Int) ≤ 1048575 ∧ (1048575 : Int) < 2 ^ 20) ∧
    ((-1 : Int) < 0) ∧ ((2 : Int) ^ 20 ≤ 1048576) ∧ (0x800000#24).getLsbD 23 = true := by decide

/-! ### Witnesses: results

One state serves most of them: IP is the last address an instruction can execute at, cell 0x20 is set, cell
0x21 is not. -/

def lateState : State := begin 0xFFFFE [(0x20, 0x00002A)]

theorem witness_LdcLoadsConstant : lateState.ip ≠ 0xFFFFF#20 := by decide
theorem witness_LdvLoadsCell :
    lateState.ip ≠ 0xFFFFF#20 ∧ Memory.read lateState.mem (0x20#20).toNat = some 0x2A#24 ∧
    Memory.read lateState.mem (0x21#20).toNat = none := by decide
theorem witness_StvStoresAccumulator : lateState.ip ≠ 0xFFFFF#20 := by decide

/-- Cell 0 holds -1, cell 1 holds 2^20, cell 2 the last address, cell 3 the address of an unset cell, cell 4
that of a set one. -/
def pointerState : State :=
  begin 0xFFFFE [(0, 0xFFFFFF), (1, 0x100000), (2, 0x0FFFFF), (3, 0x000021), (4, 0x000020), (0x20, 0x00002A)]

theorem witness_LdivLoadsThroughPointer :
    pointerState.ip ≠ 0xFFFFF#20 ∧ Memory.read pointerState.mem (5#20).toNat = none ∧
    (Memory.read pointerState.mem (0#20).toNat = some 0xFFFFFF#24 ∧ sval 0xFFFFFF#24 < 0) ∧
    (Memory.read pointerState.mem (1#20).toNat = some 0x100000#24 ∧ 2 ^ 20 ≤ sval 0x100000#24) ∧
    (Memory.read pointerState.mem (3#20).toNat = some 0x000021#24 ∧ sval 0x000021#24 = (0x21#20).toNat ∧
      Memory.read pointerState.mem (0x21#20).toNat = none) ∧
    (Memory.read pointerState.mem (4#20).toNat = some 0x000020#24 ∧ sval 0x000020#24 = (0x20#20).toNat ∧
      Memory.read pointerState.mem (0x20#20).toNat = some 0x2A#24) := by decide

theorem witness_StivStoresThroughPointer :
    pointerState.ip ≠ 0xFFFFF#20 ∧ Memory.read pointerState.mem (5#20).toNat = none ∧
    (Memory.read pointerState.mem (0#20).toNat = some 0xFFFFFF#24 ∧ sval 0xFFFFFF#24 < 0) ∧
    (Memory.read pointerState.mem (1#20).toNat = some 0x100000#24 ∧ 2 ^ 20 ≤ sval 0x100000#24) ∧
    (Memory.read pointerState.mem (2#20).toNat = some 0x0FFFFF#24 ∧
      sval 0x0FFFFF#24 = (0xFFFFF#20).toNat) := by decide

/-- SP = -1: displacement 0 is below the domain, 1 reaches cell 0, which is set, and 2 cell 1, which is not.
FP = 2^20 - 2: displacement 1 reaches the last cell, which is set, 0 the one before, which is not, and 2 is
past the domain. -/
def frameState : State :=
  begin 0xFFFFE [(0, 0x000055), (0xFFFFF, 0x000077)] { start with sp := 0xFFFFFF, fp := 0x0FFFFE }

theorem witness_RelativeLoadsAddBaseAndDisplacement :
    frameState.ip ≠ 0xFFFFF#20 ∧ sval frameState.sp + (0#20).toNat < 0 ∧
    (sval frameState.sp + (1#20).toNat = (0#20).toNat ∧ Memory.read frameState.mem (0#20).toNat = some 0x55#24) ∧
    (sval frameState.sp + (2#20).toNat = (1#20).toNat ∧ Memory.read frameState.mem (1#20).toNat = none) ∧
    2 ^ 20 ≤ sval frameState.fp + (2#20).toNat ∧
    (sval frameState.fp + (1#20).toNat = (0xFFFFF#20).toNat ∧
      Memory.read frameState.mem (0xFFFFF#20).toNat = some 0x77#24) ∧
    (sval frameState.fp + (0#20).toNat = (0xFFFFE#20).toNat ∧
      Memory.read frameState.mem (0xFFFFE#20).toNat = none) := by decide

theorem witness_RelativeStoresAddBaseAndDisplacement :
    frameState.ip ≠ 0xFFFFF#20 ∧ sval frameState.sp + (0#20).toNat < 0 ∧
    sval frameState.sp + (1#20).toNat = (0#20).toNat ∧ 2 ^ 20 ≤ sval frameState.fp + (2#20).toNat ∧
    sval frameState.fp + (1#20).toNat = (0xFFFFF#20).toNat := by decide

theorem witness_AddSumsAndShadows :
    lateState.ip ≠ 0xFFFFF#20 ∧ Memory.read lateState.mem (0x20#20).toNat = some 0x2A#24 ∧
    Memory.read lateState.mem (0x21#20).toNat = none := by decide
theorem witness_AdcAddsUnsignedConstant : lateState.ip ≠ 0xFFFFF#20 := by decide
theorem witness_BitwiseOperationsWithCell :
    lateState.ip ≠ 0xFFFFF#20 ∧ Memory.read lateState.mem (0x20#20).toNat = some 0x2A#24 ∧
    Memory.read lateState.mem (0x21#20).toNat = none := by decide
theorem witness_NotComplementsAccumulator : lateState.ip ≠ 0xFFFFF#20 := by decide
theorem witness_RarRotatesOneBit : lateState.ip ≠ 0xFFFFF#20 := by decide

/-- An equal cell, one that differs in bit 23 alone, an unset one. -/
theorem witness_EqlComparesWithCell :
    (begin 0xFFFFE [(0x20, 0), (0x22, 0x800000)]).ip ≠ 0xFFFFF#20 ∧
    Memory.read (begin 0xFFFFE [(0x20, 0), (0x22, 0x800000)]).mem (0x20#20).toNat = some start.acc ∧
    (Memory.read (begin 0xFFFFE [(0x20, 0), (0x22, 0x800000)]).mem (0x22#20).toNat = some 0x800000#24 ∧
      0x800000#24 ≠ start.acc) ∧
    Memory.read (begin 0xFFFFE [(0x20, 0), (0x22, 0x800000)]).mem (0x21#20).toNat = none := by decide

theorem witness_JmpReplacesInstructionPointer : lateState.ip ≠ 0xFFFFF#20 := by decide
theorem witness_JmnJumpsIfNegative :
    lateState.ip ≠ 0xFFFFF#20 ∧ sval ({ lateState with acc := 0x800000 } : State).acc < 0 ∧
    0 ≤ sval ({ lateState with acc := 0x7FFFFF } : State).acc ∧ 0 ≤ sval lateState.acc := by decide
theorem witness_CallSavesFollowingAddress : lateState.ip ≠ 0xFFFFF#20 := by decide
theorem witness_RetReturnsToCheckedAddress :
    lateState.ip ≠ 0xFFFFF#20 ∧ sval ({ lateState with ra := 0x0FFFFF } : State).ra = (0xFFFFF#20).toNat ∧
    sval ({ lateState with ra := 0xFFFFFF } : State).ra < 0 ∧
    2 ^ 20 ≤ sval ({ lateState with ra := 0x100000 } : State).ra := by decide
theorem witness_TransfersToAccumulator : lateState.ip ≠ 0xFFFFF#20 := by decide
theorem witness_TransfersFromAccumulator : lateState.ip ≠ 0xFFFFF#20 := by decide

/-! ### Witnesses: the host -/

theorem witness_BootHoldsExactlyTheImage :
    (([(0, 1), (0xFFFFF, 2)] : Image).map Prod.fst).Nodup ∧
    ((0xFFFFF#20, 2#24) ∈ ([(0, 1), (0xFFFFF, 2)] : Image)) ∧
    (5#20 ∉ ([(0, 1), (0xFFFFF, 2)] : Image).map Prod.fst) := by decide

/-- Outside data at the ends of every range, with a repeated address. -/
def supplied : Supplied :=
  { ip := 1048575, acc := 16777215, x := -8388608, y := 1, ir := 2, ra := 3, sp := -1, fp := 0
    cells := [(1048575, 7), (0, -8388608), (1048575, 16777215)] }

theorem ok_of_toOption {d : Supplied} (h : (supplyState d).toOption.isSome = true) :
    ∃ s, supplyState d = .ok s := by
  cases hd : supplyState d with
  | ok s => exact ⟨s, rfl⟩
  | error e =>
    rw [hd] at h
    cases h

/-- The reason a state is refused. -/
def refusalOf (d : Supplied) : Option SupplyRefusal :=
  match supplyState d with
  | .ok _ => none
  | .error e => some e

/-- D25, U20: what does not fit 24 bits, or lies outside the address domain, is refused. -/
theorem test_supply_refuses :
    refusalOf { supplied with acc := 16777216 } = some (.wideValue 16777216) ∧
    refusalOf { supplied with fp := -8388609 } = some (.wideValue (-8388609)) ∧
    refusalOf { supplied with cells := [(0, 16777216)] } = some (.wideValue 16777216) ∧
    refusalOf { supplied with cells := [(1048576, 0)] } = some (.cellAddressOutside 1048576) ∧
    refusalOf { supplied with ip := 1048576 } = some (.ipOutside 1048576) := by decide

/-- R39, R186: both readings of a word are taken; the last of a repeated address stays. -/
theorem test_supply :
    (supplyState supplied).toOption.map (fun s => (s.acc, s.x, s.sp, readCell s 0xFFFFF, readCell s 1)) =
      some (0xFFFFFF, 0x800000, 0xFFFFFF, some 0xFFFFFF, none) := by decide

theorem witness_SuppliedStatesMeetInvariant :
    (∃ s, supplyState supplied = .ok s) ∧
    ((0 ≤ supplied.ip ∧ supplied.ip < 2 ^ 20) ∧
      (∀ v ∈ [supplied.acc, supplied.x, supplied.y, supplied.ir, supplied.ra, supplied.sp, supplied.fp],
        -(2 ^ 23) ≤ v ∧ v < 2 ^ 24) ∧
      ∀ c ∈ supplied.cells, (0 ≤ c.1 ∧ c.1 < 2 ^ 20) ∧ -(2 ^ 23) ≤ c.2 ∧ c.2 < 2 ^ 24) ∧
    ({ supplied with ip := -1 } : Supplied).ip < 0 ∧
    2 ^ 20 ≤ ({ supplied with ip := 1048576 } : Supplied).ip ∧ stvNextState.Inv :=
  ⟨ok_of_toOption (by decide), by decide, by decide, by decide, by decide⟩

theorem witness_HistoryReplayShowsSameSnapshot :
    1 ≤ oneStep.view ∧ oneStep.view < oneStep.buffer.length := by decide

theorem witness_AssembledInstructionDecodesBack :
    ∃ r ∈ instructionTable, r.hasArgument = true ∧ (r.build 0xFFFF#20).wellFormed = true ∧ r.opcode = 0xFD := by
  decide

end Sys2Proof.Tests
end

section
/-! SUPPORT. The reduction of an integer to a word (00_scope.md R7, R8) as arithmetic on signed readings,
and the obligation about it. -/

namespace Sys2Proof.Machine

/-- R8, the closed form: the balanced remainder shifted to a floor modulus. -/
theorem sval_coerceToValue (v : Int) :
    sval (coerceToValue v) = (v + 2 ^ 23) % 2 ^ 24 - 2 ^ 23 := by
  rw [sval, coerceToValue, BitVec.toInt_ofInt, Int.bmod_def]
  omega

theorem sval_coerceToValue_emod (v : Int) : sval (coerceToValue v) % 2 ^ 24 = v % 2 ^ 24 := by
  rw [sval_coerceToValue]
  omega

theorem sval_coerceToValue_of_bounds {v : Int} (hlo : -(2 ^ 23) ≤ v) (hhi : v < 2 ^ 23) :
    sval (coerceToValue v) = v := by
  rw [sval_coerceToValue, Int.emod_eq_of_lt] <;> omega

@[simp] theorem coerceToValue_sval (w : Word) : coerceToValue (sval w) = w := BitVec.ofInt_toInt

theorem coerceToValue_congr {u v : Int} (h : u % 2 ^ 24 = v % 2 ^ 24) :
    coerceToValue u = coerceToValue v := by
  apply BitVec.eq_of_toInt_eq
  change sval (coerceToValue u) = sval (coerceToValue v)
  rw [sval_coerceToValue, sval_coerceToValue]
  omega

/-- A word is the reduction of every integer its signed reading is congruent to. -/
theorem eq_coerceToValue_of_emod {w : Word} {v : Int} (h : sval w % 2 ^ 24 = v % 2 ^ 24) :
    w = coerceToValue v := by
  rw [← coerceToValue_sval w, coerceToValue_congr h]

/-- Settles O32: the closed form of R8 gives congruence and the identity on the domain; uniqueness and
idempotence hold because reading a word and coercing it back gives the word again. -/
theorem coerceToValueReducesModuloWord : Obligations.CoerceToValueReducesModuloWord := fun v =>
  ⟨sval_coerceToValue v, sval_coerceToValue_emod v, fun _ => eq_coerceToValue_of_emod,
    sval_coerceToValue_of_bounds, coerceToValue_sval _⟩

end Sys2Proof.Machine
end

section
/-! SUPPORT. What a committed step is, stage by stage (40_step_cycle.md R90 to R98), that no instruction
observes IR, and the obligation about IR (10_state.md R25). -/

namespace Sys2Proof.Machine

/-- All that stages 1 and 2 can give: the word at IP, its instruction, and the state with the word in IR. -/
theorem fetchAndDecode_ok_iff {s t : State} {i : Instr} :
    fetchAndDecode s = .ok (i, t) ↔
      ∃ w, Memory.read s.mem s.ip.toNat = some w ∧ split w = .ok i ∧ s.setIr w = t := by
  simp only [fetchAndDecode, fetch, bind_ok_iff, memRead_ok_iff, pure, Except.pure, Except.ok.injEq,
    Prod.mk.injEq]
  constructor
  · rintro ⟨w, hw, j, hj, rfl, ht⟩
    exact ⟨w, hw, hj, ht⟩
  · rintro ⟨w, hw, hi, ht⟩
    exact ⟨w, hw, i, hi, rfl, ht⟩

theorem step_next_iff {s t : State} :
    step s = .next t ↔ ∃ w i, Memory.read s.mem s.ip.toNat = some w ∧ split w = .ok i ∧
      exec i (s.setIr w) = .next t := by
  unfold step
  constructor
  · intro h
    cases hf : fetchAndDecode s with
    | error e => simp [hf, raise] at h
    | ok r =>
      obtain ⟨w, hw, hi, hr⟩ := fetchAndDecode_ok_iff.1 hf
      exact ⟨w, r.1, hw, hi, by simpa [hf, hr] using h⟩
  · rintro ⟨w, i, hw, hi, ht⟩
    simpa [fetchAndDecode_ok_iff.2 ⟨w, hw, hi, rfl⟩] using ht

/-- A request that does not commit leaves the committed state (R99, R170). -/
theorem requestStep_snd_of_not_next {s : State} (h : ∀ t, step s ≠ .next t) :
    (requestStep s).2 = s := by
  unfold requestStep
  cases hs : step s with
  | next t => exact absurd hs (h t)
  | fault e => rfl
  | refused r => rfl

/-- A body that neither reads nor writes IR: from a state with another IR it answers the same, that IR kept. -/
def IrBlind (body : State → Except Fault State) : Prop :=
  ∀ (t : State) (v : Word), body (t.setIr v) = (body t).map (State.setIr · v)

theorem irBlind_ok {f : State → State} (hf : ∀ t v, f (t.setIr v) = (f t).setIr v) :
    IrBlind fun t => .ok (f t) := fun t v => congrArg Except.ok (hf t v)

/-- Reading something that does not depend on IR, then going on blindly. -/
theorem irBlind_bind {α : Type} {read : State → Except Fault α} {rest : State → α → Except Fault State}
    (hread : ∀ t v, read (t.setIr v) = read t) (hrest : ∀ a, IrBlind fun t => rest t a) :
    IrBlind fun t => read t >>= rest t := by
  intro t v
  simp only [hread]
  cases read t with
  | error e => rfl
  | ok a => exact hrest a t v

theorem irBlind_loadAcc (ea : Address) : IrBlind fun t => loadAcc t ea :=
  irBlind_bind (fun _ _ => rfl) fun _ => irBlind_ok fun _ _ => rfl

theorem irBlind_accWithMemory (f : Word → Word → Word) (a : Address) :
    IrBlind fun t => accWithMemory f t a :=
  irBlind_bind (fun _ _ => rfl) fun _ => irBlind_ok fun _ _ => rfl

theorem irBlind_storeAcc (ea : Address) : IrBlind fun t => .ok (storeAcc t ea) :=
  irBlind_ok fun _ _ => rfl

theorem irBlind_addToAcc (m : Word) : IrBlind fun t => .ok (addToAcc t m) :=
  irBlind_ok fun _ _ => rfl

/-- JMN's body: whether it jumps depends on ACC alone. -/
theorem irBlind_jmn (a : Address) :
    IrBlind fun t => .ok (if isNegative t.acc then t.setIp a else t) := by
  refine irBlind_ok fun t v => ?_
  rw [State.setIr_acc]
  split <;> rfl

/-- Every instruction but HALT is a body behind stage 4 that neither reads nor writes IR. -/
theorem exec_eq_execute_irBlind {i : Instr} (hi : i ≠ .halt) :
    ∃ body, (∀ s, exec i s = execute body s) ∧ IrBlind body := by
  cases i with
  | halt => exact absurd rfl hi
  | ldc c => exact ⟨_, exec_ldc c, irBlind_ok fun _ _ => rfl⟩
  | ldv a => exact ⟨_, exec_ldv a, irBlind_loadAcc a⟩
  | stv a => exact ⟨_, exec_stv a, irBlind_storeAcc a⟩
  | ldiv a => exact ⟨_, exec_ldiv a, irBlind_bind (fun _ _ => rfl) irBlind_loadAcc⟩
  | stiv a => exact ⟨_, exec_stiv a, irBlind_bind (fun _ _ => rfl) irBlind_storeAcc⟩
  | ldrs d => exact ⟨_, exec_ldrs d, irBlind_bind (fun _ _ => rfl) irBlind_loadAcc⟩
  | strs d => exact ⟨_, exec_strs d, irBlind_bind (fun _ _ => rfl) irBlind_storeAcc⟩
  | ldrf d => exact ⟨_, exec_ldrf d, irBlind_bind (fun _ _ => rfl) irBlind_loadAcc⟩
  | strf d => exact ⟨_, exec_strf d, irBlind_bind (fun _ _ => rfl) irBlind_storeAcc⟩
  | add a => exact ⟨_, exec_add a, irBlind_bind (fun _ _ => rfl) irBlind_addToAcc⟩
  | adc c => exact ⟨_, exec_adc c, irBlind_addToAcc (zextWord c)⟩
  | and a => exact ⟨_, exec_and a, irBlind_accWithMemory _ a⟩
  | or a => exact ⟨_, exec_or a, irBlind_accWithMemory _ a⟩
  | xor a => exact ⟨_, exec_xor a, irBlind_accWithMemory _ a⟩
  | not => exact ⟨_, exec_not, irBlind_ok fun _ _ => rfl⟩
  | rar => exact ⟨_, exec_rar, irBlind_ok fun _ _ => rfl⟩
  | eql a => exact ⟨_, exec_eql a, irBlind_accWithMemory _ a⟩
  | jmp a => exact ⟨_, exec_jmp a, irBlind_ok fun _ _ => rfl⟩
  | jmn a => exact ⟨_, exec_jmn a, irBlind_jmn a⟩
  | call a => exact ⟨_, exec_call a, irBlind_ok fun _ _ => rfl⟩
  | ret => exact ⟨_, exec_ret, irBlind_bind (fun _ _ => rfl) fun _ => irBlind_ok fun _ _ => rfl⟩
  | ldsp => exact ⟨_, exec_ldsp, irBlind_ok fun _ _ => rfl⟩
  | stsp => exact ⟨_, exec_stsp, irBlind_ok fun _ _ => rfl⟩
  | ldfp => exact ⟨_, exec_ldfp, irBlind_ok fun _ _ => rfl⟩
  | stfp => exact ⟨_, exec_stfp, irBlind_ok fun _ _ => rfl⟩
  | ldra => exact ⟨_, exec_ldra, irBlind_ok fun _ _ => rfl⟩
  | stra => exact ⟨_, exec_stra, irBlind_ok fun _ _ => rfl⟩

@[simp] theorem State.setIr_advanced (s : State) (v : Word) :
    (s.setIr v).advanced = s.advanced.setIr v := rfl

/-- Changing IR changes no next state but IR itself. -/
theorem exec_setIr_of_next {i : Instr} {s t : State} (h : exec i s = .next t) (v : Word) :
    exec i (s.setIr v) = .next (t.setIr v) := by
  by_cases hi : i = .halt
  · subst hi
    simp [exec_halt] at h
  · obtain ⟨body, hexec, hblind⟩ := exec_eq_execute_irBlind hi
    obtain ⟨hip, hbody⟩ := execute_next_iff.1 (hexec s ▸ h)
    exact hexec _ ▸ execute_next_iff.2 ⟨hip, by simp [hblind s.advanced v, hbody, Except.map]⟩

/-- Changing IR changes no fault. -/
theorem exec_setIr_of_fault {i : Instr} {s : State} {e : Fault} (h : exec i s = .fault e) (v : Word) :
    exec i (s.setIr v) = .fault e := by
  by_cases hi : i = .halt
  · subst hi
    exact h
  · obtain ⟨body, hexec, hblind⟩ := exec_eq_execute_irBlind hi
    rw [hexec, execute_fault_iff] at h ⊢
    refine h.imp_right fun ⟨hip, hbody⟩ => ⟨hip, ?_⟩
    simp [hblind s.advanced v, hbody, Except.map]

/-- No instruction writes IR: setting IR to what it held before leaves the next state as it is. -/
theorem exec_next_ir {i : Instr} {s t : State} (h : exec i s = .next t) : t.ir = s.ir := by
  have hself : exec i s = .next (t.setIr s.ir) := exec_setIr_of_next h s.ir
  have ht : t = t.setIr s.ir := Host.Outcome.next.inj (h.symm.trans hself)
  rw [ht, State.setIr_ir]

theorem step_next_ir {s t : State} {w : Word} (hw : Memory.read s.mem s.ip.toNat = some w)
    (h : step s = .next t) : t.ir = w := by
  obtain ⟨w', i, hw', -, hexec⟩ := step_next_iff.1 h
  obtain rfl : w = w' := Option.some.inj (hw.symm.trans hw')
  exact exec_next_ir hexec

/-- Settles O29: stage 1 puts the fetched word into IR, and every instruction's body is blind to IR, so the
step commits that word and nothing else depends on it. -/
theorem instructionRegisterHoldsLastCommittedWord :
    Obligations.InstructionRegisterHoldsLastCommittedWord :=
  ⟨fun _ _ _ => step_next_ir, fun _ h => congrArg State.ir (requestStep_snd_of_not_next h),
    fun _ _ _ v h => exec_setIr_of_next h v, fun _ _ v _ h => exec_setIr_of_fault h v, rfl⟩

end Sys2Proof.Machine
end

section
/-! SUPPORT. Which opcodes a word can have and which of them the table assigns (30_encoding.md R64, R70,
R73), and the obligation about the disassembly contract (R75). -/

namespace Sys2Proof

/-- R70: the assigned opcodes are a range of each format. -/
theorem exists_row_opcode_iff (n : Nat) :
    (∃ r ∈ instructionTable, r.opcode = n) ↔ n ≤ 0xD ∨ (0xF0 ≤ n ∧ n ≤ 0xFD) := by
  simp only [instructionTable, smallRows, largeRows, List.cons_append, List.nil_append, List.mem_cons,
    List.not_mem_nil, or_false, exists_eq_or_imp, exists_eq_left]
  omega

/-- R64: no word has opcode 0xF or one of 0x10 to 0xEF. -/
theorem extractOpcode_range (w : Word) :
    extractOpcode w ≤ 0xE ∨ (0xF0 ≤ extractOpcode w ∧ extractOpcode w ≤ 0xFF) := by
  have hw := w.isLt
  by_cases hs : w.toNat < 0xF00000
  · rw [extractOpcode_small hs]
    omega
  · rw [extractOpcode_large (not_lt.1 hs)]
    omega

/-- R73: the unassigned opcodes, read off the word's bits. -/
theorem unassigned_bits_iff (w : Word) :
    (w.extractLsb' 20 4 = 0xE#4 ∨ w.extractLsb' 16 8 = 0xFE#8 ∨ w.extractLsb' 16 8 = 0xFF#8) ↔
      extractOpcode w = 0xE ∨ extractOpcode w = 0xFE ∨ extractOpcode w = 0xFF := by
  have hw := w.isLt
  simp only [← BitVec.toNat_inj, BitVec.extractLsb'_toNat, BitVec.toNat_ofNat, Nat.shiftRight_eq_div_pow]
  by_cases hs : w.toNat < 0xF00000
  · rw [extractOpcode_small hs]
    omega
  · rw [extractOpcode_large (not_lt.1 hs)]
    omega

/-- A word's opcode is in the table unless it is one of the three unassigned ones (R73). -/
theorem exists_row_extractOpcode_iff (w : Word) :
    (∃ r ∈ instructionTable, r.opcode = extractOpcode w) ↔
      ¬ (extractOpcode w = 0xE ∨ extractOpcode w = 0xFE ∨ extractOpcode w = 0xFF) := by
  have hrange := extractOpcode_range w
  rw [exists_row_opcode_iff]
  omega

theorem knownInstruction_iff_exists_row (w : Word) :
    knownInstruction w = true ↔ ∃ r ∈ instructionTable, r.opcode = extractOpcode w := by
  simp only [knownInstruction, resolve, List.find?_isSome, beq_iff_eq]

theorem knownInstruction_iff_decode_ok (w : Word) :
    knownInstruction w = true ↔ ∃ i, decode w = .ok i := by
  unfold knownInstruction decode
  cases resolve (extractOpcode w) with
  | none => simp
  | some r => simp

theorem knownInstruction_congr {w w' : Word} (h : extractOpcode w' = extractOpcode w) :
    knownInstruction w' = knownInstruction w := by
  rw [knownInstruction, knownInstruction, h]

/-- Settles O6: a word is known when the table resolves its opcode, and the opcodes that words can have
leave the three of R73 outside the table. -/
theorem knownInstructionDependsOnOpcodeAlone : Obligations.KnownInstructionDependsOnOpcodeAlone :=
  fun w =>
    ⟨knownInstruction_iff_exists_row w,
      (knownInstruction_iff_exists_row w).trans
        ((exists_row_extractOpcode_iff w).trans (not_congr (unassigned_bits_iff w).symm)),
      knownInstruction_iff_decode_ok w, fun _ => knownInstruction_congr⟩

end Sys2Proof
end

section
/-! SUPPORT. The table as a map from opcodes to rows (30_encoding.md R70, R71 (d)), what stages 1 and 2 of
the step can answer (40_step_cycle.md R92 to R94), and the obligations about fetch, resolution and HALT. -/

namespace Sys2Proof

/-- R71 (d): no opcode occurs twice. -/
theorem instructionTable_opcodes_nodup : (instructionTable.map TableRow.opcode).Nodup := by decide

theorem resolve_eq_none_iff {n : Nat} : resolve n = none ↔ ∀ r ∈ instructionTable, r.opcode ≠ n := by
  simp only [resolve, List.find?_eq_none, beq_iff_eq, ne_eq]

/-- The table resolves an opcode to the row that has it: opcodes occur once, so the first is the only one. -/
theorem resolve_eq_some_iff {n : Nat} {r : TableRow} :
    resolve n = some r ↔ r ∈ instructionTable ∧ r.opcode = n := by
  refine ⟨resolve_opcode, fun ⟨hr, hn⟩ => ?_⟩
  cases hres : resolve n with
  | none => exact absurd hn (resolve_eq_none_iff.1 hres r hr)
  | some q =>
    obtain ⟨hq, hqn⟩ := resolve_opcode hres
    rw [List.inj_on_of_nodup_map instructionTable_opcodes_nodup hq hr (hqn.trans hn.symm)]

theorem decode_of_row {w : Word} {r : TableRow} (hr : r ∈ instructionTable)
    (hw : r.opcode = extractOpcode w) : decode w = .ok (r.build (extractArgument w)) := by
  simp only [decode, resolve_eq_some_iff.2 ⟨hr, hw⟩]

theorem decode_of_no_row {w : Word} (h : ∀ r ∈ instructionTable, r.opcode ≠ extractOpcode w) :
    decode w = .error (.instructionNotFound (extractOpcode w)) := by
  simp only [decode, resolve_eq_none_iff.2 h]

/-- R62, R64: an upper byte of 0xF0 or more is the opcode. -/
theorem extractOpcode_of_upperByte {w : Word} (h : 0xF0 ≤ (w.extractLsb' 16 8).toNat) :
    extractOpcode w = (w.extractLsb' 16 8).toNat := by
  have hw := w.isLt
  rw [BitVec.extractLsb'_toNat, Nat.shiftRight_eq_div_pow] at h ⊢
  rw [extractOpcode_large (by omega)]
  omega

/-- R68, D12: every word with upper byte 0xF0 is HALT, whatever its argument bits. -/
theorem decode_of_upperByte_halt {w : Word} (h : w.extractLsb' 16 8 = 0xF0#8) :
    decode w = .ok .halt := by
  have hop : extractOpcode w = 0xF0 := by
    rw [extractOpcode_of_upperByte (by rw [h]; decide), h]
    rfl
  rw [decode, hop]
  rfl

end Sys2Proof

namespace Sys2Proof.Machine

theorem split_ok_iff {w : Word} {i : Instr} : split w = .ok i ↔ decode w = .ok i := by
  unfold split
  cases decode w with
  | ok j => simp
  | error e => simp

theorem split_error_iff {w : Word} {e : Fault} :
    split w = .error e ↔ ∃ n, decode w = .error (.instructionNotFound n) ∧ .instructionNotFound n = e := by
  unfold split
  cases decode w with
  | ok j => simp
  | error d =>
    obtain ⟨n⟩ := d
    simp

/-- The ways stages 1 and 2 can fail: no word at IP, or a word that is no instruction. -/
theorem fetchAndDecode_error_iff {s : State} {e : Fault} :
    fetchAndDecode s = .error e ↔
      (Memory.read s.mem s.ip.toNat = none ∧ .uninitializedMemory s.ip = e) ∨
        ∃ w, Memory.read s.mem s.ip.toNat = some w ∧ split w = .error e := by
  simp [fetchAndDecode, fetch, bind_error_iff, memRead_ok_iff, memRead_error_iff, pure, Except.pure]

theorem step_of_fetchAndDecode_error {s : State} {e : Fault} (h : fetchAndDecode s = .error e) :
    step s = .fault e := by
  simp only [step, h, raise]

theorem step_of_read_none {s : State} (h : Memory.read s.mem s.ip.toNat = none) :
    step s = .fault (.uninitializedMemory s.ip) :=
  step_of_fetchAndDecode_error (fetchAndDecode_error_iff.2 (.inl ⟨h, rfl⟩))

theorem step_of_decode_error {s : State} {w : Word} {n : Nat}
    (hw : Memory.read s.mem s.ip.toNat = some w) (h : decode w = .error (.instructionNotFound n)) :
    step s = .fault (.instructionNotFound n) :=
  step_of_fetchAndDecode_error (fetchAndDecode_error_iff.2 (.inr ⟨w, hw, split_error_iff.2 ⟨n, h, rfl⟩⟩))

theorem step_of_decode_ok {s : State} {w : Word} {i : Instr}
    (hw : Memory.read s.mem s.ip.toNat = some w) (h : decode w = .ok i) :
    step s = exec i (s.setIr w) := by
  simp only [step, fetchAndDecode_ok_iff.2 ⟨w, hw, split_ok_iff.2 h, rfl⟩]

/-- A request that faults keeps the committed state (R99, R170). -/
theorem requestStep_of_fault {s : State} {e : Fault} (h : step s = .fault e) :
    requestStep s = (.fault e, s) := by
  simp only [requestStep, h]

/-- Settles O9: stage 1 is a memory read at IP, and a step that commits leaves the word it read in IR. -/
theorem fetchReadsCellAtIpIntoIr : Obligations.FetchReadsCellAtIpIntoIr :=
  fun _ => ⟨step_of_read_none, fun _ _ => step_next_ir⟩

/-- Settles O10: a word decodes through the one row with its opcode, and without such a row the step ends in
stage 2. -/
theorem tableResolvesFetchedWord : Obligations.TableResolvesFetchedWord := fun _ _ hw =>
  ⟨fun hnone => requestStep_of_fault (step_of_decode_error hw (decode_of_no_row hnone)),
    fun _ hr hop => step_of_decode_ok hw (decode_of_row hr hop)⟩

/-- Settles O11: a word with upper byte 0xF0 decodes to HALT, which faults before stage 4 looks at IP. -/
theorem haltWordHaltsAndCommitsNothing : Obligations.HaltWordHaltsAndCommitsNothing :=
  ⟨exec_halt, fun s w hw hbyte => requestStep_of_fault <|
    calc step s = exec .halt (s.setIr w) := step_of_decode_ok hw (decode_of_upperByte_halt hbyte)
      _ = .fault .programHalt := exec_halt _⟩

end Sys2Proof.Machine
end

section
/-! SUPPORT. The words of format S, their decoding (30_encoding.md R64, R65), and the obligations about the
direct load and the direct store (41_load_store.md R112, R113). -/

namespace Sys2Proof

/-- R64, R65: a word of format S is its opcode's four bits above its argument's twenty. -/
theorem smallWord_toNat (o : BitVec 4) (a : Address) :
    (o ++ a : Word).toNat = o.toNat * 2 ^ 20 + a.toNat := by
  rw [BitVec.toNat_append, or_shiftLeft_eq _ _ _ a.isLt]

/-- R62: upper bits other than 0xF make a word of format S. -/
theorem smallWord_lt {o : BitVec 4} (ho : o ≠ 0xF#4) (a : Address) :
    (o ++ a : Word).toNat < 0xF00000 := by
  rw [smallWord_toNat]
  bv_omega

theorem extractOpcode_smallWord {o : BitVec 4} (ho : o ≠ 0xF#4) (a : Address) :
    extractOpcode (o ++ a : Word) = o.toNat := by
  rw [extractOpcode_small (smallWord_lt ho a), smallWord_toNat]
  omega

theorem extractArgument_smallWord {o : BitVec 4} (ho : o ≠ 0xF#4) (a : Address) :
    extractArgument (o ++ a : Word) = a := by
  apply BitVec.eq_of_toNat_eq
  rw [extractArgument_small (smallWord_lt ho a), smallWord_toNat]
  omega

/-- A word of format S decodes to what its opcode's row builds from its argument. -/
theorem decode_smallWord (o : BitVec 4) {r : TableRow} (ho : o ≠ 0xF#4)
    (hr : resolve o.toNat = some r) (a : Address) : decode (o ++ a : Word) = .ok (r.build a) := by
  simp only [decode, extractOpcode_smallWord ho, extractArgument_smallWord ho, hr]

end Sys2Proof

namespace Sys2Proof.Machine

/-- A read of the cell written last gives the word written (R41, R42, R48). -/
theorem memRead_of_mem_write {t : State} {m : Memory} {a : Address} {w : Word}
    (h : t.mem = Memory.write m a.toNat w) : memRead t a = .ok w := by
  rw [memRead_ok_iff, h, Memory.read_write_self]

/-- Settles O36: LDV is the load `loadAcc` behind stage 4, which leaves memory as it is, so cell `a` decides
between the load's two results. -/
theorem ldvLoadsCell : Obligations.LdvLoadsCell := fun a s =>
  ⟨decode_smallWord 0x1 (by decide) rfl a, fun hip =>
    ⟨fun m hm => execute_next_iff.2 ⟨hip, loadAcc_ok_iff.2 ⟨m, hm, rfl⟩⟩,
      fun hunset => execute_fault_iff.2 (.inr ⟨hip, loadAcc_error_iff.2 ⟨hunset, rfl⟩⟩)⟩⟩

/-- Settles O37: STV's body is the store `storeAcc`, which cannot fail, and a fetch is a memory read at IP. -/
theorem stvStoresAccumulator : Obligations.StvStoresAccumulator := fun a s =>
  ⟨decode_smallWord 0x2 (by decide) rfl a, fun hip =>
    ⟨storeAcc s.advanced a, execute_next_iff.2 ⟨hip, rfl⟩, rfl, memRead_of_mem_write rfl⟩⟩

end Sys2Proof.Machine
end

section
/-! SUPPORT. The one arithmetic operation as addition of words (42_arithmetic.md R120), and the obligation
about it. -/

namespace Sys2Proof.Machine

/-- R120: reducing the exact sum of two signed readings is adding the words. -/
theorem addWords_eq_add (a b : Word) : addWords a b = a + b :=
  calc coerceToValue (sval a + sval b)
      _ = coerceToValue (sval a) + coerceToValue (sval b) := BitVec.ofInt_add _ _
      _ = a + b := by rw [coerceToValue_sval, coerceToValue_sval]

/-- R120, the unsigned form of the sum. -/
theorem addWords_toNat (a b : Word) : (addWords a b).toNat = (a.toNat + b.toNat) % 2 ^ 24 := by
  rw [addWords_eq_add, BitVec.toNat_add]

/-- Settles O34: the reduced sum is the addition of words, which is commutative and associative with
neutral 0; the rule's fixed points are four such additions. -/
theorem additionWrapsModuloWord : Obligations.AdditionWrapsModuloWord := by
  refine ⟨fun a b => ⟨rfl, addWords_toNat a b, ?comm, fun c => ?assoc, ?zero⟩, ?fixedPoints⟩
  case comm => rw [addWords_eq_add, addWords_eq_add, BitVec.add_comm]
  case assoc => simp only [addWords_eq_add, BitVec.add_assoc]
  case zero => exact (addWords_eq_add a 0).trans (BitVec.add_zero a)
  case fixedPoints =>
    simp only [addWords_eq_add]
    decide

end Sys2Proof.Machine
end

section
/-! SUPPORT. What a body that sets IP leaves of stage 4 (44_control_flow.md R135), and the obligation
about the unconditional jump (R136). -/

namespace Sys2Proof.Machine

/-- R135 (a), (g): a target replaces the IP of stage 4, whose X = Y = 0 stays. -/
theorem State.advanced_setIp (s : State) (a : Address) :
    s.advanced.setIp a = { s with ip := a, x := 0, y := 0 } := rfl

/-- Settles O48: JMP's body sets IP behind stage 4 and cannot fail, so only stage 4 decides the outcome. -/
theorem jmpReplacesInstructionPointer : Obligations.JmpReplacesInstructionPointer := fun a s =>
  ⟨decode_smallWord 0x8 (by decide) rfl a, fun hip =>
    execute_next_iff.2 ⟨hip, congrArg Except.ok (State.advanced_setIp s a)⟩⟩

end Sys2Proof.Machine
end

section
/-! SUPPORT. The failures stages 4 and 5 can end in (60_exceptions.md R161, R162, R167), what a fault of the
whole step comes from (R169), and the obligation about ProgramHalt (R164). -/

namespace Sys2Proof.Machine

/-- The two failures an operand can cause: an unset cell (R161) or a value outside the address domain
(R162). -/
def Fault.IsOperandFault : Fault → Prop
  | .uninitializedMemory _ | .overflow _ => True
  | .instructionNotFound _ | .programHalt => False

/-- A computation that fails, if it fails, on an operand. -/
def OperandFaultsOnly {α : Type} (r : Except Fault α) : Prop :=
  ∀ e, r = .error e → e.IsOperandFault

theorem OperandFaultsOnly.ok {α : Type} (a : α) : OperandFaultsOnly (.ok a) := fun _ h => nomatch h

theorem OperandFaultsOnly.bind {α β : Type} {r : Except Fault α} {f : α → Except Fault β}
    (hr : OperandFaultsOnly r) (hf : ∀ a, OperandFaultsOnly (f a)) : OperandFaultsOnly (r >>= f) := by
  intro e h
  rcases bind_error_iff.1 h with h | ⟨a, -, h⟩
  · exact hr e h
  · exact hf a e h

theorem operandFaultsOnly_memRead (t : State) (a : Address) : OperandFaultsOnly (memRead t a) := by
  intro e h
  obtain ⟨-, rfl⟩ := memRead_error_iff.1 h
  trivial

theorem operandFaultsOnly_coerceToAddress (v : Int) : OperandFaultsOnly (coerceToAddress v) := by
  intro e h
  obtain ⟨-, rfl⟩ := coerceToAddress_error_iff.1 h
  trivial

theorem operandFaultsOnly_loadAcc (t : State) (ea : Address) : OperandFaultsOnly (loadAcc t ea) :=
  (operandFaultsOnly_memRead t ea).bind fun _ => .ok _

theorem operandFaultsOnly_accWithMemory (f : Word → Word → Word) (t : State) (a : Address) :
    OperandFaultsOnly (accWithMemory f t a) :=
  (operandFaultsOnly_memRead t a).bind fun _ => .ok _

theorem operandFaultsOnly_indirectAddress (t : State) (a : Address) :
    OperandFaultsOnly (indirectAddress t a) :=
  (operandFaultsOnly_memRead t a).bind fun _ => operandFaultsOnly_coerceToAddress _

theorem operandFaultsOnly_relativeAddress (base : Word) (d : Address) :
    OperandFaultsOnly (relativeAddress base d) := operandFaultsOnly_coerceToAddress _

/-- R167: every instruction but HALT is a body behind stage 4 that fails on its operands alone. -/
theorem exec_eq_execute_operandFaultsOnly {i : Instr} (hi : i ≠ .halt) :
    ∃ body, (∀ s, exec i s = execute body s) ∧ ∀ t, OperandFaultsOnly (body t) := by
  cases i with
  | halt => exact absurd rfl hi
  | ldc c => exact ⟨_, exec_ldc c, fun _ => .ok _⟩
  | ldv a => exact ⟨_, exec_ldv a, fun t => operandFaultsOnly_loadAcc t a⟩
  | stv a => exact ⟨_, exec_stv a, fun _ => .ok _⟩
  | ldiv a =>
    exact ⟨_, exec_ldiv a, fun t => (operandFaultsOnly_indirectAddress t a).bind (operandFaultsOnly_loadAcc t)⟩
  | stiv a => exact ⟨_, exec_stiv a, fun t => (operandFaultsOnly_indirectAddress t a).bind fun _ => .ok _⟩
  | ldrs d =>
    exact ⟨_, exec_ldrs d, fun t => (operandFaultsOnly_relativeAddress t.sp d).bind (operandFaultsOnly_loadAcc t)⟩
  | strs d => exact ⟨_, exec_strs d, fun t => (operandFaultsOnly_relativeAddress t.sp d).bind fun _ => .ok _⟩
  | ldrf d =>
    exact ⟨_, exec_ldrf d, fun t => (operandFaultsOnly_relativeAddress t.fp d).bind (operandFaultsOnly_loadAcc t)⟩
  | strf d => exact ⟨_, exec_strf d, fun t => (operandFaultsOnly_relativeAddress t.fp d).bind fun _ => .ok _⟩
  | add a => exact ⟨_, exec_add a, fun t => (operandFaultsOnly_memRead t a).bind fun _ => .ok _⟩
  | adc c => exact ⟨_, exec_adc c, fun _ => .ok _⟩
  | and a => exact ⟨_, exec_and a, fun t => operandFaultsOnly_accWithMemory _ t a⟩
  | or a => exact ⟨_, exec_or a, fun t => operandFaultsOnly_accWithMemory _ t a⟩
  | xor a => exact ⟨_, exec_xor a, fun t => operandFaultsOnly_accWithMemory _ t a⟩
  | not => exact ⟨_, exec_not, fun _ => .ok _⟩
  | rar => exact ⟨_, exec_rar, fun _ => .ok _⟩
  | eql a => exact ⟨_, exec_eql a, fun t => operandFaultsOnly_accWithMemory _ t a⟩
  | jmp a => exact ⟨_, exec_jmp a, fun _ => .ok _⟩
  | jmn a => exact ⟨_, exec_jmn a, fun _ => .ok _⟩
  | call a => exact ⟨_, exec_call a, fun _ => .ok _⟩
  | ret => exact ⟨_, exec_ret, fun t => (operandFaultsOnly_coerceToAddress (sval t.ra)).bind fun _ => .ok _⟩
  | ldsp => exact ⟨_, exec_ldsp, fun _ => .ok _⟩
  | stsp => exact ⟨_, exec_stsp, fun _ => .ok _⟩
  | ldfp => exact ⟨_, exec_ldfp, fun _ => .ok _⟩
  | stfp => exact ⟨_, exec_stfp, fun _ => .ok _⟩
  | ldra => exact ⟨_, exec_ldra, fun _ => .ok _⟩
  | stra => exact ⟨_, exec_stra, fun _ => .ok _⟩

/-- R162, R167: stage 4 fails with an overflow, stage 5 as the body does. -/
theorem exec_fault_isOperandFault {i : Instr} {s : State} {e : Fault} (hi : i ≠ .halt)
    (h : exec i s = .fault e) : e.IsOperandFault := by
  obtain ⟨body, hexec, hbody⟩ := exec_eq_execute_operandFaultsOnly hi
  rcases execute_fault_iff.1 (hexec s ▸ h) with ⟨-, rfl⟩ | ⟨-, h⟩
  · trivial
  · exact hbody _ e h

/-- R151, R164: among the instructions HALT alone raises ProgramHalt. -/
theorem exec_programHalt_iff {i : Instr} {s : State} : exec i s = .fault .programHalt ↔ i = .halt := by
  refine ⟨fun h => ?_, fun hi => hi ▸ exec_halt s⟩
  by_contra hi
  exact exec_fault_isOperandFault hi h

/-- R169: a step faults in stages 1 and 2, or with the decoded instruction's fault. -/
theorem step_fault_iff {s : State} {e : Fault} :
    step s = .fault e ↔ fetchAndDecode s = .error e ∨
      ∃ w i, Memory.read s.mem s.ip.toNat = some w ∧ decode w = .ok i ∧ exec i (s.setIr w) = .fault e := by
  constructor
  · intro h
    cases hf : fetchAndDecode s with
    | error d =>
      rw [step_of_fetchAndDecode_error hf] at h
      exact .inl (congrArg Except.error (Host.Outcome.fault.inj h))
    | ok r =>
      obtain ⟨w, hw, hsplit, -⟩ := fetchAndDecode_ok_iff.1 hf
      have hdecode : decode w = .ok r.1 := split_ok_iff.1 hsplit
      exact .inr ⟨w, r.1, hw, hdecode, step_of_decode_ok hw hdecode ▸ h⟩
  · rintro (hf | ⟨w, i, hw, hdecode, h⟩)
    · exact step_of_fetchAndDecode_error hf
    · exact (step_of_decode_ok hw hdecode).trans h

/-- Stages 1 and 2 never halt: they find no word or no instruction (R161, R163). -/
theorem fetchAndDecode_ne_programHalt (s : State) : fetchAndDecode s ≠ .error .programHalt := by
  intro h
  rcases fetchAndDecode_error_iff.1 h with ⟨-, he⟩ | ⟨w, -, hsplit⟩
  · cases he
  · obtain ⟨n, -, he⟩ := split_error_iff.1 hsplit
    cases he

/-- Settles O12: stages 1 and 2 never raise ProgramHalt, and of the instructions HALT alone does. -/
theorem onlyHaltRaisesProgramHalt : Obligations.OnlyHaltRaisesProgramHalt := by
  intro s
  rw [step_fault_iff, or_iff_right (fetchAndDecode_ne_programHalt s)]
  simp only [exec_programHalt_iff, exists_and_left, exists_eq_right]

end Sys2Proof.Machine
end

section
/-! SUPPORT. The state right after reset (70_reset_and_hazards.md R181), and the obligation about its
registers. -/

namespace Sys2Proof.Machine

/-- Settles O54: the reset state gives each of the eight registers as the literal 0. -/
theorem resetRegistersAreZero : Obligations.ResetRegistersAreZero :=
  ⟨rfl, rfl, rfl, rfl, rfl, rfl, rfl, rfl⟩

end Sys2Proof.Machine
end

section
/-! SUPPORT. Assembly and extraction as inverses of each other, over the fields of R64 to R66, over whole
instructions (30_encoding.md R67, R68) and over the assembler's mnemonics (R81, R82), and the obligations about
the two round trips. -/

namespace Sys2Proof

theorem extractOpcode_combine_small {opcode : Nat} (h : opcode ≤ 0xE) (argument : Nat) :
    extractOpcode (combineInstruction opcode argument) = opcode := by
  have hw := combine_small_toNat h argument
  rw [extractOpcode_small (by omega), hw]
  omega

theorem extractArgument_combine_small {opcode : Nat} (h : opcode ≤ 0xE) (argument : Nat) :
    (extractArgument (combineInstruction opcode argument)).toNat = argument % 2 ^ 20 := by
  have hw := combine_small_toNat h argument
  rw [extractArgument_small (by omega), hw]
  omega

theorem extractOpcode_combine_large {opcode : Nat} (h : 0xF0 ≤ opcode) (h' : opcode ≤ 0xFF)
    (argument : Nat) : extractOpcode (combineInstruction opcode argument) = opcode := by
  have hw := combine_large_toNat h h' argument
  rw [extractOpcode_large (by omega), hw]
  omega

theorem extractArgument_combine_large {opcode : Nat} (h : 0xF0 ≤ opcode) (h' : opcode ≤ 0xFF)
    (argument : Nat) :
    (extractArgument (combineInstruction opcode argument)).toNat = argument % 2 ^ 16 := by
  have hw := combine_large_toNat h h' argument
  rw [extractArgument_large (by omega), hw]
  omega

/-- Settles O3: in each format the combined word's number has the opcode and the masked argument as its
digits. -/
theorem combineThenExtractRecoversFields : Obligations.CombineThenExtractRecoversFields :=
  fun _ argument =>
    ⟨fun h => ⟨extractOpcode_combine_small h argument, extractArgument_combine_small h argument⟩,
      fun h h' =>
        ⟨extractOpcode_combine_large h h' argument, extractArgument_combine_large h h' argument⟩⟩

/-- The argument fits the field of the opcode's format (R61). -/
def FitsField (opcode : Nat) (a : Address) : Prop := 0xF0 ≤ opcode → a.toNat < 2 ^ 16

/-- An assigned opcode and an argument that fits its field are read back from their word (R64 to R66). -/
theorem extract_combine_of_fitsField {r : TableRow} (hr : r ∈ instructionTable) {a : Address}
    (ha : FitsField r.opcode a) :
    extractOpcode (combineInstruction r.opcode a.toNat) = r.opcode ∧
      extractArgument (combineInstruction r.opcode a.toNat) = a := by
  have hlt := a.isLt
  rcases (exists_row_opcode_iff r.opcode).1 ⟨r, hr, rfl⟩ with hs | ⟨hlo, hhi⟩
  · refine ⟨extractOpcode_combine_small (by omega) _, BitVec.eq_of_toNat_eq ?_⟩
    rw [extractArgument_combine_small (by omega), Nat.mod_eq_of_lt hlt]
  · refine ⟨extractOpcode_combine_large hlo (by omega) _, BitVec.eq_of_toNat_eq ?_⟩
    rw [extractArgument_combine_large hlo (by omega), Nat.mod_eq_of_lt (ha hlo)]

/-- What a row of R70 says of the instruction it builds: its opcode, its argument, and when it is exactly
encodable; a row without an argument is one of format L. -/
structure TableRow.Describes (r : TableRow) : Prop where
  opcodeOf_build : ∀ a, opcodeOf (r.build a) = r.opcode
  argumentOf_build : ∀ a, argumentOf (r.build a) = if r.hasArgument then some a else none
  wellFormed_build : ∀ a, (r.build a).wellFormed = true ↔ (r.hasArgument = true → FitsField r.opcode a)
  large_of_noArgument : r.hasArgument = false → 0xF0 ≤ r.opcode

theorem describes_of_mem_smallRows {r : TableRow} (hr : r ∈ smallRows) : r.Describes := by
  simp only [smallRows, List.mem_cons, List.not_mem_nil, or_false] at hr
  rcases hr with rfl | rfl | rfl | rfl | rfl | rfl | rfl | rfl | rfl | rfl | rfl | rfl | rfl | rfl
  all_goals exact ⟨fun _ => rfl, fun _ => rfl, fun _ => by simp [Instr.wellFormed, FitsField], nofun⟩

theorem describes_of_mem_largeRows {r : TableRow} (hr : r ∈ largeRows) : r.Describes := by
  simp only [largeRows, List.mem_cons, List.not_mem_nil, or_false] at hr
  rcases hr with rfl | rfl | rfl | rfl | rfl | rfl | rfl | rfl | rfl | rfl | rfl | rfl | rfl | rfl
  all_goals exact ⟨fun _ => rfl, fun _ => rfl,
    fun _ => by simp [Instr.wellFormed, fitsLargeArgument, FitsField], fun _ => by simp⟩

theorem describes_of_mem {r : TableRow} (hr : r ∈ instructionTable) : r.Describes :=
  (List.mem_append.1 hr).elim describes_of_mem_smallRows describes_of_mem_largeRows

/-- The table's row of an instruction, which builds it from its argument (R70, R71 (d)). -/
theorem exists_row_of_instr (i : Instr) :
    ∃ r ∈ instructionTable, r.opcode = opcodeOf i ∧ r.build ((argumentOf i).getD 0) = i := by
  have hrow : Laws.OpcodeRow.Statement i := by cases i <;> rfl
  obtain ⟨r, hr, hbuild⟩ := Option.map_eq_some_iff.1 hrow
  exact ⟨r, (resolve_opcode hr).1, (resolve_opcode hr).2, congrArg Prod.fst hbuild⟩

/-- A well-formed instruction's argument fits the field of its opcode (R61). -/
theorem fitsField_of_wellFormed {i : Instr} (hi : i.wellFormed = true) :
    FitsField (opcodeOf i) ((argumentOf i).getD 0) := by
  obtain ⟨r, hr, hop, hbuild⟩ := exists_row_of_instr i
  have hd := describes_of_mem hr
  cases harg : r.hasArgument with
  | true => exact hop ▸ (hd.wellFormed_build _).1 (by rw [hbuild, hi]) harg
  | false =>
    have hnone : argumentOf i = none := by rw [← hbuild, hd.argumentOf_build, harg]; rfl
    rw [hnone]
    exact fun _ => by decide

/-- Settles O1: the row of the instruction's opcode builds it from the argument its word gives back. -/
theorem encodeThenDecodeGivesInstruction : Obligations.EncodeThenDecodeGivesInstruction := by
  intro i hi
  obtain ⟨r, hr, hop, hbuild⟩ := exists_row_of_instr i
  obtain ⟨hopcode, hargument⟩ := extract_combine_of_fitsField hr (hop ▸ fitsField_of_wellFormed hi)
  rw [encode, ← hop, decode_of_row hr hopcode.symm, hargument, hbuild]

/-- Assembling the two fields of a word gives the word back (R64 to R66). -/
theorem combine_extract (w : Word) :
    combineInstruction (extractOpcode w) (extractArgument w).toNat = w := by
  have hw := w.isLt
  apply BitVec.eq_of_toNat_eq
  by_cases hs : w.toNat < 0xF00000
  · rw [combine_small_toNat (by rw [extractOpcode_small hs]; omega), extractOpcode_small hs,
      extractArgument_small hs]
    omega
  · have hl : 0xF00000 ≤ w.toNat := not_lt.1 hs
    rw [combine_large_toNat (by rw [extractOpcode_large hl]; omega) (by rw [extractOpcode_large hl]; omega),
      extractOpcode_large hl, extractArgument_large hl]
    omega

/-- Masking the lower 16 bits, on the word's number. -/
theorem toNat_and_upperByte (w : Word) : (w &&& 0xFF0000#24).toNat = w.toNat / 2 ^ 16 * 2 ^ 16 := by
  have hw := w.isLt
  have hdiv : (w.toNat &&& 0xFF0000) / 2 ^ 16 = w.toNat / 2 ^ 16 := by
    rw [Nat.and_div_two_pow]
    exact (Nat.and_two_pow_sub_one_eq_mod _ 8).trans (Nat.mod_eq_of_lt (by omega))
  have hmod : (w.toNat &&& 0xFF0000) % 2 ^ 16 = 0 := by
    rw [Nat.and_mod_two_pow]
    exact Nat.and_zero _
  rw [BitVec.toNat_and, show (0xFF0000#24).toNat = 0xFF0000 from rfl]
  omega

/-- Assembling a format-L word's opcode with the argument 0 masks its argument bits (R66, R68). -/
theorem combine_extractOpcode_zero {w : Word} (h : 0xF0 ≤ extractOpcode w) :
    combineInstruction (extractOpcode w) 0 = w &&& 0xFF0000#24 := by
  have hrange := extractOpcode_range w
  have hl : 0xF00000 ≤ w.toNat := by
    by_contra hs
    rw [extractOpcode_small (not_le.1 hs)] at h
    omega
  apply BitVec.eq_of_toNat_eq
  rw [combine_large_toNat h (by omega), toNat_and_upperByte, extractOpcode_large hl]
  omega

/-- The argument a word gives fits the field of its opcode (R65). -/
theorem fitsField_extract (w : Word) : FitsField (extractOpcode w) (extractArgument w) := by
  intro h
  by_cases hs : w.toNat < 0xF00000
  · rw [extractOpcode_small hs] at h
    omega
  · rw [extractArgument_large (not_lt.1 hs)]
    omega

theorem decode_ok_iff {w : Word} {i : Instr} :
    decode w = .ok i ↔
      ∃ r ∈ instructionTable, r.opcode = extractOpcode w ∧ r.build (extractArgument w) = i := by
  unfold decode
  cases hres : resolve (extractOpcode w) with
  | none => simpa using fun r hr hop => absurd hop (resolve_eq_none_iff.1 hres r hr)
  | some q =>
    constructor
    · intro h
      exact ⟨q, (resolve_opcode hres).1, (resolve_opcode hres).2, Except.ok.inj h⟩
    · rintro ⟨r, hr, hop, hbuild⟩
      obtain rfl : q = r := Option.some.inj (hres.symm.trans (resolve_eq_some_iff.2 ⟨hr, hop⟩))
      exact congrArg Except.ok hbuild

/-- Settles O2: the row of a word's opcode describes the instruction it builds, so its encoding assembles the
word's own opcode with the word's own argument, or with 0 where the row has no argument. -/
theorem decodeThenEncodeGivesWord : Obligations.DecodeThenEncodeGivesWord := by
  intro w i h
  obtain ⟨r, hr, hop, rfl⟩ := decode_ok_iff.1 h
  have hd := describes_of_mem hr
  refine ⟨(hd.wellFormed_build _).2 fun _ => hop ▸ fitsField_extract w, ?arg, ?noArg⟩
  case arg =>
    intro a ha
    rw [encode, ha, hd.opcodeOf_build, hop]
    cases harg : r.hasArgument with
    | false => simp [hd.argumentOf_build, harg] at ha
    | true =>
      obtain rfl : extractArgument w = a := by simpa [hd.argumentOf_build, harg] using ha
      exact combine_extract w
  case noArg =>
    intro hnone
    have harg : r.hasArgument = false := by simpa [hd.argumentOf_build] using hnone
    rw [encode, hnone, hd.opcodeOf_build, hop]
    exact combine_extractOpcode_zero (hop ▸ hd.large_of_noArgument harg)

theorem decode_error_iff {w : Word} {n : Nat} :
    decode w = .error (.instructionNotFound n) ↔
      extractOpcode w = n ∧ ∀ r ∈ instructionTable, r.opcode ≠ extractOpcode w := by
  rw [← resolve_eq_none_iff]
  unfold decode
  cases resolve (extractOpcode w) <;> simp

/-- R64 in format S: the upper four bits are the opcode, where they are not 0xF. -/
theorem upperNibble_eq_iff (w : Word) {o : BitVec 4} (ho : o ≠ 0xF#4) :
    w.extractLsb' 20 4 = o ↔ extractOpcode w = o.toNat := by
  have hw := w.isLt
  rw [← BitVec.toNat_inj, BitVec.extractLsb'_toNat, Nat.shiftRight_eq_div_pow]
  by_cases hs : w.toNat < 0xF00000
  · rw [extractOpcode_small hs]
    omega
  · rw [extractOpcode_large (not_lt.1 hs)]
    bv_omega

/-- R64 in format L: the upper byte is the opcode, where it is 0xF0 or more. -/
theorem upperByte_eq_iff (w : Word) {b : BitVec 8} (hb : 0xF0 ≤ b.toNat) :
    w.extractLsb' 16 8 = b ↔ extractOpcode w = b.toNat := by
  have hw := w.isLt
  rw [← BitVec.toNat_inj, BitVec.extractLsb'_toNat, Nat.shiftRight_eq_div_pow]
  by_cases hs : w.toNat < 0xF00000
  · rw [extractOpcode_small hs]
    omega
  · rw [extractOpcode_large (not_lt.1 hs)]
    omega

/-- Settles O4: decoding fails with the word's opcode where the table lacks it, and the opcodes that words have
and the table lacks are the three of R73. -/
theorem onlyUnassignedOpcodesAreNotFound : Obligations.OnlyUnassignedOpcodesAreNotFound := by
  intro w n
  have hunassigned : (∀ r ∈ instructionTable, r.opcode ≠ extractOpcode w) ↔
      extractOpcode w = 0xE ∨ extractOpcode w = 0xFE ∨ extractOpcode w = 0xFF := by
    simpa only [not_exists, not_and, not_not] using not_congr (exists_row_extractOpcode_iff w)
  rw [decode_error_iff, hunassigned, upperNibble_eq_iff w (by decide), upperByte_eq_iff w (by decide),
    upperByte_eq_iff w (by decide)]
  simp only [BitVec.toNat_ofNat]
  omega

/-! ### Words of format L -/

theorem upperByte_largeWord (b : BitVec 8) (z : BitVec 16) : (b ++ z : Word).extractLsb' 16 8 = b := by
  rw [BitVec.extractLsb'_append_eq_of_le (by decide)]
  exact BitVec.extractLsb'_eq_self

/-- A word of format L decodes to what its opcode's row builds from its argument. -/
theorem decode_largeWord (b : BitVec 8) {r : TableRow} (hb : 0xF0 ≤ b.toNat) (hr : resolve b.toNat = some r)
    (z : BitVec 16) : decode (b ++ z : Word) = .ok (r.build (extractArgument (b ++ z))) := by
  have hop : extractOpcode (b ++ z : Word) = b.toNat :=
    (upperByte_eq_iff _ hb).1 (upperByte_largeWord b z)
  exact decode_of_row (resolve_opcode hr).1 ((resolve_opcode hr).2.trans hop.symm)

/-- Settles O5: the rows of opcodes 0xF0 to 0xF9 build the same instruction from every argument. -/
theorem argumentBitsIgnoredWhereNoArgument : Obligations.ArgumentBitsIgnoredWhereNoArgument := fun z =>
  ⟨decode_largeWord 0xF0 (by decide) rfl z, decode_largeWord 0xF1 (by decide) rfl z,
    decode_largeWord 0xF2 (by decide) rfl z, decode_largeWord 0xF3 (by decide) rfl z,
    decode_largeWord 0xF4 (by decide) rfl z, decode_largeWord 0xF5 (by decide) rfl z,
    decode_largeWord 0xF6 (by decide) rfl z, decode_largeWord 0xF7 (by decide) rfl z,
    decode_largeWord 0xF8 (by decide) rfl z, decode_largeWord 0xF9 (by decide) rfl z⟩

/-- Settles O7: the twelve words are literals, so the codec computes what each decodes to. -/
theorem wordsOfEachFamilyDecode : Obligations.WordsOfEachFamilyDecode := by
  unfold Obligations.WordsOfEachFamilyDecode
  decide

/-! ### The assembler -/

/-- R71 (d): no mnemonic occurs twice. -/
theorem instructionTable_mnemonics_nodup :
    (instructionTable.map fun r => r.mnemonic.toList).Nodup := by decide

/-- R81: a row's mnemonic, written as the table writes it, names that row. -/
theorem rowOfMnemonic_of_mem {r : TableRow} (hr : r ∈ instructionTable) :
    Machine.rowOfMnemonic r.mnemonic.toList = some r := by
  have hupper : ∀ q ∈ instructionTable, q.mnemonic.toList.map Char.toUpper = q.mnemonic.toList := by decide
  simp only [Machine.rowOfMnemonic, hupper r hr]
  cases hfind : instructionTable.find? fun q => q.mnemonic.toList == r.mnemonic.toList with
  | none => simpa using List.find?_eq_none.1 hfind r hr
  | some q =>
    have hq : q.mnemonic.toList = r.mnemonic.toList := by simpa using List.find?_some hfind
    rw [List.inj_on_of_nodup_map instructionTable_mnemonics_nodup (List.mem_of_find?_eq_some hfind) hr hq]

/-- R80: an address written as a literal is inside the address domain. -/
theorem argumentValue_literal (decls : List (List Char × Nat)) (a : Address) :
    Machine.argumentValue decls (.literal a.toNat) = .ok a.toNat := by
  have ha := a.isLt
  exact if_pos (by omega)

/-- R82: an argument-taking mnemonic with an address assembles to the encoding of its row's instruction. -/
theorem assembleItem_instruction {r : TableRow} (hr : r ∈ instructionTable) (harg : r.hasArgument = true)
    (decls : List (List Char × Nat)) (a : Address) :
    Machine.assembleItem decls (.instruction r.mnemonic.toList (some (.literal a.toNat))) =
      .ok (.ok (encode (r.build a))) := by
  have hd := describes_of_mem hr
  have hencode : encode (r.build a) = combineInstruction r.opcode a.toNat := by
    simp [encode, hd.opcodeOf_build, hd.argumentOf_build, harg]
  simp only [Machine.assembleItem, rowOfMnemonic_of_mem hr, harg, argumentValue_literal, hencode, Except.map]

/-- Settles O59: the assembled word is the encoding of the row's instruction, which decodes back. -/
theorem assembledInstructionDecodesBack : Obligations.AssembledInstructionDecodesBack :=
  fun _ hr harg a hwf =>
    ⟨_, assembleItem_instruction hr harg [] a, encodeThenDecodeGivesInstruction _ hwf⟩

end Sys2Proof
end

section
/-! SUPPORT. What every request and every instruction has in common (40_step_cycle.md R90 to R100): the
composition of the stages, stage 4 at the last address, stopped engines, the shadows that stage 4 overwrites,
and the obligations about them. -/

namespace Sys2Proof.Machine

/-- Settles O8: stage 1 finds the word, stage 2 its instruction, and IR is set on the way. -/
theorem stepRunsDecodedInstruction : Obligations.StepRunsDecodedInstruction :=
  fun _ _ _ => step_of_decode_ok

/-- A request answers what the step answers (R90, R91). -/
theorem requestStep_fst (s : State) : (requestStep s).1 = step s := by
  unfold requestStep
  cases step s <;> rfl

/-- Settles O13: a request that does not commit is a fixed point, so all later requests are the first. -/
theorem stoppedEngineRepeatsForEver : Obligations.StoppedEngineRepeatsForEver := by
  intro s hstop n
  have hfixed : (fun u => (requestStep u).2)^[n] s = s :=
    Function.iterate_fixed (requestStep_snd_of_not_next hstop) n
  exact ⟨hfixed, by rw [hfixed, requestStep_fst]⟩

/-- Settles O14: every instruction but HALT stands behind stage 4, which fails at the last address. -/
theorem lastAddressOverflows : Obligations.LastAddressOverflows := by
  intro i s hi hip
  obtain ⟨body, hexec⟩ := exec_eq_execute hi
  rw [hexec, execute_fault_iff]
  exact .inl ⟨hip, rfl⟩

theorem exec_not_refused (i : Instr) (s : State) (q : Refusal) : exec i s ≠ .refused q := by
  by_cases hi : i = .halt
  · rw [hi, exec_halt]
    exact nofun
  · obtain ⟨body, hexec⟩ := exec_eq_execute hi
    exact hexec s ▸ execute_not_refused body s q

/-- Settles O16: stages 1 and 2 fault or hand over to an instruction, and no instruction refuses. -/
theorem noStepIsRefused : Obligations.NoStepIsRefused := by
  intro s q
  cases hf : fetchAndDecode s with
  | error e =>
    rw [step_of_fetchAndDecode_error hf]
    exact nofun
  | ok r =>
    obtain ⟨w, hw, hsplit, -⟩ := fetchAndDecode_ok_iff.1 hf
    rw [step_of_decode_ok hw (split_ok_iff.1 hsplit)]
    exact exec_not_refused _ _ q

/-- Stage 4 reads neither shadow and overwrites both (R96). -/
theorem execute_shadows (body : State → Except Fault State) (s : State) (u v : Word) :
    execute body { s with x := u, y := v } = execute body s := rfl

/-- Settles O27: every body sees the state stage 4 left, in which both shadows are 0; HALT has no body. -/
theorem shadowsInfluenceNothing : Obligations.ShadowsInfluenceNothing := by
  intro i s u v
  by_cases hi : i = .halt
  · rw [hi, exec_halt, exec_halt]
  · obtain ⟨body, hexec⟩ := exec_eq_execute hi
    rw [hexec, hexec, execute_shadows]

/-- Settles O55: the reset memory lists no cell, so the first fetch finds none at address 0. -/
theorem resetMemoryIsUnset : Obligations.ResetMemoryIsUnset :=
  ⟨Memory.read_nil, step_of_read_none rfl⟩

end Sys2Proof.Machine
end

section
/-! SUPPORT. Addresses computed from words (00_scope.md R9): the check in terms of the address it answers, and
the obligation about it. -/

namespace Sys2Proof.Machine

/-- R9 inside the domain: the address answered is the integer itself. -/
theorem coerceToAddress_eq_ok_iff {v : Int} {a : Address} :
    coerceToAddress v = .ok a ↔ v = a.toNat := by
  have ha := a.isLt
  rw [coerceToAddress_ok_iff, ← BitVec.toNat_inj, BitVec.toNat_ofInt]
  omega

/-- R9 outside the domain. -/
theorem coerceToAddress_of_outside {v : Int} (h : v < 0 ∨ 2 ^ 20 ≤ v) :
    coerceToAddress v = .error (.overflow v) :=
  coerceToAddress_error_iff.2 ⟨by omega, rfl⟩

/-- R137, R7: bit 23 is the sign of the signed reading. -/
theorem isNegative_iff (w : Word) : isNegative w = true ↔ sval w < 0 := by
  rw [isNegative, sval, ← BitVec.msb_eq_getLsbD_last, BitVec.msb_eq_toInt, decide_eq_true_iff]

/-- Settles O33: the check answers exactly the integers that are addresses, and a word with bit 23 set reads
as a negative integer. -/
theorem coerceToAddressChecksDomain : Obligations.CoerceToAddressChecksDomain := by
  refine ⟨fun v h0 hv => ?inside, fun v => coerceToAddress_of_outside, fun w hw => ?negative⟩
  case inside =>
    have hcast : v = (BitVec.ofNat 20 v.toNat).toNat := by
      rw [BitVec.toNat_ofNat]
      omega
    exact ⟨_, coerceToAddress_eq_ok_iff.2 hcast, hcast.symm⟩
  case negative => exact coerceToAddress_of_outside (.inl ((isNegative_iff w).1 hw))

end Sys2Proof.Machine
end

section
/-! SUPPORT. Memory as canonical data (10_state.md R33, R39; 20_memory.md R48), and the obligations about it. -/

namespace Sys2Proof.Machine

theorem Memory.wf_nil : Memory.wf [] := ⟨.nil, nofun⟩

theorem Memory.wf_of_cons {c : Nat × Word} {m : Memory} (h : Memory.wf (c :: m)) : Memory.wf m :=
  ⟨(List.pairwise_cons.1 h.1).2, fun d hd => h.2 d (List.mem_cons_of_mem c hd)⟩

/-- The first cell of a canonical memory is not listed again: the rest reads as unset there and below. -/
theorem Memory.read_tail_of_le {c : Nat × Word} {m : Memory} (h : Memory.wf (c :: m)) {a : Nat}
    (ha : a ≤ c.1) : Memory.read m a = none :=
  Memory.read_below fun d hd => Nat.lt_of_le_of_lt ha ((List.pairwise_cons.1 h.1).1 d hd)

@[simp] theorem Memory.read_cons_self (k : Nat) (v : Word) (m : Memory) :
    Memory.read ((k, v) :: m) k = some v := if_pos rfl

theorem Memory.read_cons_of_ne {k a : Nat} (v : Word) (m : Memory) (h : k ≠ a) :
    Memory.read ((k, v) :: m) a = Memory.read m a := if_neg h

/-- A cell below the first of a canonical memory is unset. -/
theorem Memory.read_of_lt_head {k a : Nat} {v : Word} {m : Memory} (h : Memory.wf ((k, v) :: m))
    (ha : a < k) : Memory.read ((k, v) :: m) a = none := by
  rw [Memory.read_cons_of_ne v m (Nat.ne_of_gt ha), Memory.read_tail_of_le h (Nat.le_of_lt ha)]

/-- Two non-empty canonical memories with equal reads begin with the same cell: the lower of two first
addresses would be set in one and unset in the other. -/
theorem Memory.head_eq_of_read_eq {j k : Nat} {u v : Word} {m n : Memory} (hm : Memory.wf ((j, u) :: m))
    (hn : Memory.wf ((k, v) :: n))
    (h : ∀ a, Memory.read ((j, u) :: m) a = Memory.read ((k, v) :: n) a) : j = k ∧ u = v := by
  rcases Nat.lt_trichotomy j k with hlt | rfl | hgt
  · have hj := h j
    simp [Memory.read_of_lt_head hn hlt] at hj
  · have hj := h j
    simpa using hj
  · have hk := h k
    simp [Memory.read_of_lt_head hm hgt] at hk

theorem Memory.eq_of_read_eq {m n : Memory} (hm : m.wf) (hn : n.wf)
    (h : ∀ a, Memory.read m a = Memory.read n a) : m = n := by
  induction m generalizing n with
  | nil =>
    match n, h with
    | [], _ => rfl
    | (k, v) :: n, h => simpa using h k
  | cons c m ih =>
    obtain ⟨j, u⟩ := c
    match n, hn, h with
    | [], _, h => simpa using h j
    | (k, v) :: n, hn, h =>
      obtain ⟨rfl, rfl⟩ := Memory.head_eq_of_read_eq hm hn h
      have htail : ∀ a, Memory.read m a = Memory.read n a := by
        intro a
        by_cases ha : j = a
        · rw [Memory.read_tail_of_le hm (Nat.le_of_eq ha.symm), Memory.read_tail_of_le hn (Nat.le_of_eq ha.symm)]
        · rw [← Memory.read_cons_of_ne u m ha, h a, Memory.read_cons_of_ne u n ha]
      rw [ih (Memory.wf_of_cons hm) (Memory.wf_of_cons hn) htail]

/-- Settles O24, by induction on the two lists: equal reads give equal first cells, and then the rests read
alike. -/
theorem canonicalMemoriesWithEqualReadsAreEqual : Obligations.CanonicalMemoriesWithEqualReadsAreEqual :=
  fun _ _ => Memory.eq_of_read_eq

/-- The later of two writes to a cell is the only one that counts. -/
theorem Memory.write_write_self (m : Memory) (a : Nat) (v w : Word) :
    Memory.write (Memory.write m a v) a w = Memory.write m a w := by
  induction m with
  | nil => simp [Memory.write]
  | cons c m ih =>
    obtain ⟨k, u⟩ := c
    rcases Nat.lt_trichotomy a k with h | rfl | h
    · simp [Memory.write, h]
    · simp [Memory.write]
    · simp [Memory.write, ih, Nat.lt_asymm h, Nat.ne_of_gt h]

/-- Settles O23: of two writes to a cell the later counts, and a read of the cell gives what was written. -/
theorem storingTwiceIsStoringOnce : Obligations.StoringTwiceIsStoringOnce := fun s a w =>
  ⟨congrArg s.setMem (Memory.write_write_self s.mem a.toNat w w), memRead_of_mem_write rfl⟩

/-- Settles O17: the reset memory lists no cell. -/
theorem resetMeetsMemoryInvariant : Obligations.ResetMeetsMemoryInvariant := Memory.wf_nil

end Sys2Proof.Machine
end

section
/-! SUPPORT. What stages 4 and 5 can commit, over all instructions (40_step_cycle.md R96 to R98), and the
obligations about memory, the shadows and the registers that follow from it. -/

namespace Sys2Proof.Machine

theorem toOption_eq_some_iff {ε α : Type} {r : Except ε α} {a : α} : r.toOption = some a ↔ r = .ok a := by
  cases r <;> simp [Except.toOption]

/-- R54: the address of a store, where its meaning computes one, is where the instruction stores ACC. -/
theorem exec_of_storeAddress {i : Instr} {s : State} {ea : Address} (hip : s.ip ≠ 0xFFFFF#20)
    (h : storeAddress i s = some ea) : exec i s = .next (storeAcc s.advanced ea) := by
  cases i with
  | stv a =>
    obtain rfl : a = ea := Option.some.inj h
    exact execute_next_iff.2 ⟨hip, rfl⟩
  | stiv a =>
    have hea : indirectAddress s.advanced a = .ok ea := toOption_eq_some_iff.1 h
    exact execute_next_iff.2 ⟨hip, bind_ok_iff.2 ⟨ea, hea, rfl⟩⟩
  | strs d =>
    have hea : relativeAddress s.sp d = .ok ea := toOption_eq_some_iff.1 h
    exact execute_next_iff.2 ⟨hip, bind_ok_iff.2 ⟨ea, hea, rfl⟩⟩
  | strf d =>
    have hea : relativeAddress s.fp d = .ok ea := toOption_eq_some_iff.1 h
    exact execute_next_iff.2 ⟨hip, bind_ok_iff.2 ⟨ea, hea, rfl⟩⟩
  | _ => cases h

theorem stores_of_storeAddress {i : Instr} {s : State} {ea : Address} (h : storeAddress i s = some ea) :
    i.stores = true := by
  cases i with
  | stv _ | stiv _ | strs _ | strf _ => rfl
  | _ => cases h

/-- The next states `i` can answer, as the register and memory writes of its body on what stage 4 left. -/
inductive Effect : Instr → State → State → Prop where
  | load {i : Instr} {s : State} (w : Word) (hi : i.writesAcc = true) (hx : i.writesShadows = false) :
      Effect i s (s.advanced.setAcc w)
  | add {i : Instr} {s : State} (m : Word) (hx : i.writesShadows = true) : Effect i s (addToAcc s.advanced m)
  | store {i : Instr} {s : State} {ea : Address} (hea : storeAddress i s = some ea) :
      Effect i s (storeAcc s.advanced ea)
  | jmp {s : State} (a : Address) : Effect (.jmp a) s (s.advanced.setIp a)
  | jmnTaken {s : State} (a : Address) (hneg : isNegative s.acc = true) :
      Effect (.jmn a) s (s.advanced.setIp a)
  | jmnNotTaken {s : State} (a : Address) (hneg : isNegative s.acc = false) : Effect (.jmn a) s s.advanced
  | call {s : State} (a : Address) :
      Effect (.call a) s ((s.advanced.setRa (zextWord (s.ip + 1))).setIp a)
  | ret {s : State} {target : Address} (hra : sval s.ra = target.toNat) :
      Effect .ret s (s.advanced.setIp target)
  | stra {s : State} : Effect .stra s (s.advanced.setRa s.acc)
  | stsp {s : State} : Effect .stsp s (s.advanced.setSp s.acc)
  | stfp {s : State} : Effect .stfp s (s.advanced.setFp s.acc)

theorem Effect.of_loadAcc {i : Instr} {s t : State} {ea : Address} (hi : i.writesAcc = true)
    (hx : i.writesShadows = false) (h : loadAcc s.advanced ea = .ok t) : Effect i s t := by
  obtain ⟨m, -, rfl⟩ := loadAcc_ok_iff.1 h
  exact .load m hi hx

theorem Effect.of_accWithMemory {i : Instr} {f : Word → Word → Word} {s t : State} {a : Address}
    (hi : i.writesAcc = true) (hx : i.writesShadows = false)
    (h : accWithMemory f s.advanced a = .ok t) : Effect i s t := by
  obtain ⟨m, -, rfl⟩ := accWithMemory_ok_iff.1 h
  exact .load _ hi hx

/-- Stages 4 and 5 by instruction: what the body answers on the state stage 4 left is one of the effects. -/
theorem exec_next_effect {i : Instr} {s t : State} (h : exec i s = .next t) : Effect i s t := by
  cases i with
  | halt => cases h
  | ldc _ | not | rar | ldsp | ldfp | ldra =>
    obtain ⟨-, ⟨⟩⟩ := execute_next_iff.1 h
    exact .load _ rfl rfl
  | ldv _ => exact .of_loadAcc rfl rfl (execute_next_iff.1 h).2
  | ldiv _ | ldrs _ | ldrf _ =>
    obtain ⟨ea, -, hload⟩ := bind_ok_iff.1 (execute_next_iff.1 h).2
    exact .of_loadAcc rfl rfl hload
  | and _ | or _ | xor _ | eql _ => exact .of_accWithMemory rfl rfl (execute_next_iff.1 h).2
  | add _ =>
    obtain ⟨m, -, ⟨⟩⟩ := bind_ok_iff.1 (execute_next_iff.1 h).2
    exact .add m rfl
  | adc c =>
    obtain ⟨-, ⟨⟩⟩ := execute_next_iff.1 h
    exact .add (zextWord c) rfl
  | stv _ =>
    obtain ⟨-, ⟨⟩⟩ := execute_next_iff.1 h
    exact .store rfl
  | stiv _ | strs _ | strf _ =>
    obtain ⟨ea, hea, ⟨⟩⟩ := bind_ok_iff.1 (execute_next_iff.1 h).2
    exact .store (congrArg Except.toOption hea)
  | jmp a =>
    obtain ⟨-, ⟨⟩⟩ := execute_next_iff.1 h
    exact .jmp a
  | jmn a =>
    obtain ⟨-, ⟨⟩⟩ := execute_next_iff.1 h
    split
    case isTrue hneg => exact .jmnTaken a hneg
    case isFalse hneg => exact .jmnNotTaken a (Bool.eq_false_of_not_eq_true hneg)
  | call a =>
    obtain ⟨-, ⟨⟩⟩ := execute_next_iff.1 h
    exact .call a
  | ret =>
    obtain ⟨target, htarget, ⟨⟩⟩ := bind_ok_iff.1 (execute_next_iff.1 h).2
    exact .ret (coerceToAddress_eq_ok_iff.1 htarget)
  | stra =>
    obtain ⟨-, ⟨⟩⟩ := execute_next_iff.1 h
    exact .stra
  | stsp =>
    obtain ⟨-, ⟨⟩⟩ := execute_next_iff.1 h
    exact .stsp
  | stfp =>
    obtain ⟨-, ⟨⟩⟩ := execute_next_iff.1 h
    exact .stfp

/-! ### Memory -/

/-- R54: a committed instruction leaves memory, or writes ACC to the address it stores to. -/
theorem exec_next_mem {i : Instr} {s t : State} (h : exec i s = .next t) :
    t.mem = s.mem ∨
      ∃ ea, storeAddress i s = some ea ∧ t.mem = Memory.write s.mem ea.toNat s.acc := by
  cases exec_next_effect h with
  | store hea => exact .inr ⟨_, hea, rfl⟩
  | _ => exact .inl rfl

theorem exec_next_inv {i : Instr} {s t : State} (hs : s.Inv) (h : exec i s = .next t) : t.Inv := by
  rcases exec_next_mem h with hmem | ⟨ea, -, hmem⟩
  · rwa [State.Inv, hmem]
  · rw [State.Inv, hmem]
    exact Memory.write_wf hs ea.isLt

/-- Settles O18: stages 1 and 2 leave memory, and an instruction leaves it or writes one cell at an address. -/
theorem stepKeepsMemoryInvariant : Obligations.StepKeepsMemoryInvariant := by
  intro s t hs h
  obtain ⟨w, i, -, -, hexec⟩ := step_next_iff.1 h
  exact exec_next_inv (s := s.setIr w) hs hexec

theorem loadImage_inv (image : Image) {s : State} (hs : s.Inv) : (loadImage image s).Inv := by
  induction image generalizing s with
  | nil => exact hs
  | cons e image ih => exact ih (s := memWrite s e.1 e.2) (Memory.write_wf hs e.1.isLt)

/-- What every step keeps holds of all states a run reaches (R154). -/
theorem Steps.inv {s t : State} (h : Steps s t) (hs : s.Inv) : t.Inv := by
  induction h with
  | refl => exact hs
  | tail _ hstep ih => exact stepKeepsMemoryInvariant _ _ ih hstep

/-- Settles O19: loading starts from the reset memory and keeps the invariant, as every step does. -/
theorem runsFromLoadedImagesKeepInvariant : Obligations.RunsFromLoadedImagesKeepInvariant :=
  fun image _ h => h.inv (loadImage_inv image resetMeetsMemoryInvariant)

/-- Settles O21: the alternative, a write, takes an address that only a store computes. -/
theorem nonStoringInstructionsLeaveMemory : Obligations.NonStoringInstructionsLeaveMemory := by
  intro i s t hi h b
  rcases exec_next_mem h with hmem | ⟨ea, hea, -⟩
  · rw [hmem]
  · rw [stores_of_storeAddress hea] at hi
    cases hi

/-- R42, R110 (a): the frame of a store. -/
theorem storeEffect_storeAcc (s : State) (ea : Address) : StoreEffect s (storeAcc s.advanced ea) ea where
  stored := Memory.read_write_self _ _ _
  others _ hb := Memory.read_write_other _ _ hb
  acc := rfl
  x := rfl
  y := rfl
  ir := rfl
  ip := rfl
  ra := rfl
  sp := rfl
  fp := rfl

theorem exec_next_of_storeAddress {i : Instr} {s t : State} {ea : Address} (hea : storeAddress i s = some ea)
    (h : exec i s = .next t) : t = storeAcc s.advanced ea :=
  Host.Outcome.next.inj (h.symm.trans (exec_of_storeAddress (ip_ne_last_of_exec_next h) hea))

theorem storeEffect_of_exec {i : Instr} {s t : State} {ea : Address} (hea : storeAddress i s = some ea)
    (h : exec i s = .next t) : StoreEffect s t ea :=
  exec_next_of_storeAddress hea h ▸ storeEffect_storeAcc s ea

/-- Settles O20: each of the four stores computes its address as its meaning does, and then writes ACC there. -/
theorem storesChangeOneCell : Obligations.StoresChangeOneCell := fun _ _ =>
  ⟨fun a => storeEffect_of_exec (i := .stv a) rfl,
    fun a _ hea => storeEffect_of_exec (i := .stiv a) (congrArg Except.toOption hea),
    fun d _ hea => storeEffect_of_exec (i := .strs d) (congrArg Except.toOption hea),
    fun d _ hea => storeEffect_of_exec (i := .strf d) (congrArg Except.toOption hea)⟩

theorem Memory.read_write_isSome {m : Memory} {a b : Nat} {v : Word} (w : Word)
    (h : Memory.read m b = some v) : ∃ v', Memory.read (Memory.write m a w) b = some v' := by
  by_cases hb : b = a
  · exact ⟨w, hb ▸ Memory.read_write_self m b w⟩
  · exact ⟨v, (Memory.read_write_other m w hb).trans h⟩

/-- A write sets at most its own cell, to its own word. -/
theorem Memory.eq_of_read_write {m : Memory} {a b : Nat} {v w : Word} (hunset : Memory.read m b = none)
    (h : Memory.read (Memory.write m a w) b = some v) : v = w := by
  by_cases hb : b = a
  · subst hb
    exact Option.some.inj (h.symm.trans (Memory.read_write_self m b w))
  · rw [Memory.read_write_other m w hb, hunset] at h
    cases h

/-- Settles O22: a step leaves memory or writes ACC to one cell, and then the word at IP decodes to a store. -/
theorem setCellsStaySet : Obligations.SetCellsStaySet := by
  intro s t h b
  obtain ⟨w, i, hw, hsplit, hexec⟩ := step_next_iff.1 h
  rcases exec_next_mem hexec with hmem | ⟨ea, hea, hmem⟩ <;> rw [hmem]
  · refine ⟨fun v hv => ⟨v, hv⟩, fun v hunset hv => ?_⟩
    exact absurd (hunset.symm.trans hv) nofun
  · refine ⟨fun v hv => Memory.read_write_isSome _ hv, fun v hunset hv => ?_⟩
    exact ⟨Memory.eq_of_read_write hunset hv, w, i, hw, split_ok_iff.1 hsplit, stores_of_storeAddress hea⟩

/-- The address of a store does not depend on IR. -/
theorem storeAddress_setIr (i : Instr) (s : State) (w : Word) :
    storeAddress i (s.setIr w) = storeAddress i s := by
  cases i <;> rfl

/-- Settles O25: the next state's memory is the old one with ACC written at the address, so a fetch there
gives ACC, and the next step starts with that fetch where the address is IP + 1. -/
theorem storedWordIsExecutedNext : Obligations.StoredWordIsExecutedNext := by
  intro s t w j a hw hdecode hea h
  have hexec : exec j (s.setIr w) = .next t := (step_of_decode_ok hw hdecode).symm.trans h
  have ht : t = storeAcc (s.setIr w).advanced a :=
    exec_next_of_storeAddress ((storeAddress_setIr j s w).trans hea) hexec
  have hfetch : fetch { t with ip := a } = .ok s.acc := by
    subst ht
    exact memRead_of_mem_write rfl
  refine ⟨hfetch, fun ha i hi => step_of_decode_ok ?_ hi⟩
  have hip : t.ip = a := by rw [ht, ha]; rfl
  exact hip ▸ memRead_ok_iff.1 hfetch

/-! ### Registers -/

/-- Settles O28: stage 4 leaves both shadows 0 and no effect but an addition's writes them. -/
theorem shadowsZeroUnlessAddition : Obligations.ShadowsZeroUnlessAddition := by
  intro i s t h hi
  cases exec_next_effect h with
  | add m hx =>
    rw [hx] at hi
    cases hi
  | _ => exact ⟨rfl, rfl⟩

/-- Settles O30: of the effects only CALL's and STRA's write RA, only STSP's SP and only STFP's FP. -/
theorem pointerRegisterWriters : Obligations.PointerRegisterWriters := by
  intro i s t h
  cases exec_next_effect h with
  | call a => exact ⟨fun _ => .inl ⟨a, rfl⟩, absurd rfl, absurd rfl⟩
  | stra => exact ⟨fun _ => .inr rfl, absurd rfl, absurd rfl⟩
  | stsp => exact ⟨absurd rfl, fun _ => rfl, absurd rfl⟩
  | stfp => exact ⟨absurd rfl, absurd rfl, fun _ => rfl⟩
  | _ => exact ⟨absurd rfl, absurd rfl, absurd rfl⟩

/-- The address after any but the last is its number's successor (R96, D10). -/
theorem toNat_succ_of_ne_last {a : Address} (h : a ≠ 0xFFFFF#20) : (a + 1).toNat = a.toNat + 1 := by
  bv_omega

/-- Settles O31: stage 4 leaves IP + 1, and of the effects only those of the four control-flow instructions
write IP. -/
theorem instructionPointerAfterCommittedStep : Obligations.InstructionPointerAfterCommittedStep := by
  intro i s t h
  have hip := ip_ne_last_of_exec_next h
  refine ⟨hip, ?_⟩
  cases exec_next_effect h with
  | load _ hi | add _ hi | store hi =>
    cases i with
    | jmp _ | jmn _ | call _ | ret => cases hi
    | _ => rfl
  | jmp a => rfl
  | jmnTaken a hneg => exact (if_pos hneg).symm
  | jmnNotTaken a hneg => exact (if_neg (Bool.eq_false_iff.1 hneg)).symm
  | call a => exact ⟨rfl, (BitVec.toNat_setWidth_of_le (by decide)).trans (toNat_succ_of_ne_last hip)⟩
  | ret hra => exact hra.symm
  | stra | stsp | stfp => rfl

end Sys2Proof.Machine
end

section
/-! SUPPORT. What a body can fail with, and where (60_exceptions.md R161, R162, R167), which bodies read or
write ACC (10_state.md R22, R29), and the obligations about both. -/

namespace Sys2Proof.Machine

/-! ### Failures -/

/-- The failures of the body of `i`, with the cell or the value that R167 lists for it. -/
inductive BodyFault (i : Instr) (s : State) : Fault → Prop where
  | unset {a : Address} (hi : i.readsMemory = true) (hread : bodyReads i s a)
      (hunset : Memory.read s.mem a.toNat = none) : BodyFault i s (.uninitializedMemory a)
  | outside {v : Int} (hi : i.checksAddress = true) (hcheck : bodyChecks i s v)
      (hv : v < 0 ∨ 2 ^ 20 ≤ v) : BodyFault i s (.overflow v)

theorem BodyFault.of_memRead {i : Instr} {s : State} {e : Fault} {a : Address} (hi : i.readsMemory = true)
    (hread : bodyReads i s a) (h : memRead s.advanced a = .error e) : BodyFault i s e := by
  obtain ⟨hunset, rfl⟩ := memRead_error_iff.1 h
  exact .unset hi hread hunset

theorem BodyFault.of_loadAcc {i : Instr} {s : State} {e : Fault} {a : Address} (hi : i.readsMemory = true)
    (hread : bodyReads i s a) (h : loadAcc s.advanced a = .error e) : BodyFault i s e := by
  obtain ⟨hunset, rfl⟩ := loadAcc_error_iff.1 h
  exact .unset hi hread hunset

theorem BodyFault.of_accWithMemory {i : Instr} {f : Word → Word → Word} {s : State} {e : Fault} {a : Address}
    (hi : i.readsMemory = true) (hread : bodyReads i s a)
    (h : accWithMemory f s.advanced a = .error e) : BodyFault i s e := by
  obtain ⟨hunset, rfl⟩ := accWithMemory_error_iff.1 h
  exact .unset hi hread hunset

theorem BodyFault.of_coerceToAddress {i : Instr} {s : State} {e : Fault} {v : Int}
    (hi : i.checksAddress = true) (hcheck : bodyChecks i s v) (h : coerceToAddress v = .error e) :
    BodyFault i s e := by
  obtain ⟨hv, rfl⟩ := coerceToAddress_error_iff.1 h
  exact .outside hi hcheck (by omega)

theorem BodyFault.of_indirectAddress {i : Instr} {s : State} {e : Fault} {a : Address}
    (hi : i.readsMemory = true) (hi' : i.checksAddress = true) (hread : bodyReads i s a)
    (hcheck : ∀ p, Memory.read s.mem a.toNat = some p → bodyChecks i s (sval p))
    (h : indirectAddress s.advanced a = .error e) : BodyFault i s e := by
  rcases indirectAddress_error_iff.1 h with ⟨hunset, rfl⟩ | ⟨p, hp, hv⟩
  · exact .unset hi hread hunset
  · exact .of_coerceToAddress hi' (hcheck p hp) hv

/-- All the ways an instruction can fail: HALT in stage 3, any other in stage 4 or in its body. -/
theorem exec_fault_cases {i : Instr} {s : State} {e : Fault} (h : exec i s = .fault e) :
    (i = .halt ∧ e = .programHalt) ∨ (s.ip = 0xFFFFF#20 ∧ e = .overflow 0x100000) ∨
      (s.ip ≠ 0xFFFFF#20 ∧ BodyFault i s e) := by
  by_cases hhalt : i = .halt
  · subst hhalt
    exact .inl ⟨rfl, (Host.Outcome.fault.inj h).symm⟩
  refine .inr ?_
  cases i with
  | halt => exact absurd rfl hhalt
  | ldc _ | stv _ | adc _ | not | rar | jmp _ | jmn _ | call _ | ldra | stra | ldsp | stsp | ldfp | stfp =>
    exact (execute_fault_iff.1 h).imp_right fun ⟨_, hbody⟩ => nomatch hbody
  | ldv _ =>
    exact (execute_fault_iff.1 h).imp_right fun ⟨hip, hbody⟩ => ⟨hip, .of_loadAcc rfl rfl hbody⟩
  | and _ | or _ | xor _ | eql _ =>
    exact (execute_fault_iff.1 h).imp_right fun ⟨hip, hbody⟩ => ⟨hip, .of_accWithMemory rfl rfl hbody⟩
  | add _ =>
    refine (execute_fault_iff.1 h).imp_right fun ⟨hip, hbody⟩ => ⟨hip, ?_⟩
    rcases bind_error_iff.1 hbody with hread | ⟨_, -, ⟨⟩⟩
    exact .of_memRead rfl rfl hread
  | ldiv c =>
    refine (execute_fault_iff.1 h).imp_right fun ⟨hip, hbody⟩ => ⟨hip, ?_⟩
    rcases bind_error_iff.1 hbody with hea | ⟨ea, hea, hload⟩
    · exact .of_indirectAddress rfl rfl (.inl rfl) (fun p hp => ⟨p, hp, rfl⟩) hea
    · obtain ⟨p, hp, hv⟩ := indirectAddress_ok_iff.1 hea
      exact .of_loadAcc rfl (.inr ⟨p, hp, coerceToAddress_eq_ok_iff.1 hv⟩) hload
  | stiv c =>
    refine (execute_fault_iff.1 h).imp_right fun ⟨hip, hbody⟩ => ⟨hip, ?_⟩
    rcases bind_error_iff.1 hbody with hea | ⟨_, -, ⟨⟩⟩
    exact .of_indirectAddress rfl rfl rfl (fun p hp => ⟨p, hp, rfl⟩) hea
  | ldrs _ | ldrf _ =>
    refine (execute_fault_iff.1 h).imp_right fun ⟨hip, hbody⟩ => ⟨hip, ?_⟩
    rcases bind_error_iff.1 hbody with hea | ⟨ea, hea, hload⟩
    · exact .of_coerceToAddress rfl rfl hea
    · exact .of_loadAcc rfl (coerceToAddress_eq_ok_iff.1 hea).symm hload
  | strs _ | strf _ =>
    refine (execute_fault_iff.1 h).imp_right fun ⟨hip, hbody⟩ => ⟨hip, ?_⟩
    rcases bind_error_iff.1 hbody with hea | ⟨_, -, ⟨⟩⟩
    exact .of_coerceToAddress rfl rfl hea
  | ret =>
    refine (execute_fault_iff.1 h).imp_right fun ⟨hip, hbody⟩ => ⟨hip, ?_⟩
    rcases bind_error_iff.1 hbody with hra | ⟨_, -, ⟨⟩⟩
    exact .of_coerceToAddress rfl rfl hra

/-- Settles O15: HALT's failure, stage 4's and the two of a body, each with what it says of its payload. -/
theorem failuresOfEachInstruction : Obligations.FailuresOfEachInstruction := by
  intro i s e h
  rcases exec_fault_cases h with ⟨hi, rfl⟩ | ⟨hip, rfl⟩ | ⟨hip, hfault⟩
  · exact ⟨fun _ => hi, nofun, nofun, nofun⟩
  · refine ⟨nofun, nofun, nofun, fun v hv => ?_⟩
    obtain rfl : 0x100000 = v := Fault.overflow.inj hv
    exact ⟨.inr (by decide), .inl ⟨hip, by decide⟩⟩
  · cases hfault with
    | unset hi hread hunset =>
      refine ⟨nofun, nofun, fun a ha => ?_, nofun⟩
      obtain rfl := Fault.uninitializedMemory.inj ha
      exact ⟨hip, hunset, hi, hread⟩
    | outside hi hcheck hv =>
      refine ⟨nofun, nofun, nofun, fun v hv' => ?_⟩
      obtain rfl := Fault.overflow.inj hv'
      exact ⟨hv, .inr ⟨hip, hi, hcheck⟩⟩

/-! ### The accumulator -/

/-- The writers' half of R22: of the effects only a load and an addition write ACC. -/
theorem exec_next_acc {i : Instr} {s t : State} (hi : i.writesAcc = false) (h : exec i s = .next t) :
    t.acc = s.acc := by
  cases exec_next_effect h with
  | load _ hw =>
    rw [hw] at hi
    cases hi
  | add _ hx =>
    cases i with
    | add _ | adc _ => cases hi
    | _ => cases hx
  | _ => rfl

/-- Stages 4 and 5 depend on IP and on what the body answers where stage 4 lets it run. -/
theorem execute_congr {body : State → Except Fault State} {s s' : State} (hip : s'.ip = s.ip)
    (hbody : body s'.advanced = body s.advanced) : execute body s' = execute body s := by
  rw [execute, execute, advance_eq, advance_eq, hip]
  by_cases h : s.ip = 0xFFFFF#20
  · rw [if_pos h, if_pos h]
  · rw [if_neg h, if_neg h]
    exact congrArg commit hbody

/-- A body that writes ACC without reading it answers the same for every ACC (R22). -/
theorem exec_setAcc_of_overwrites {i : Instr} (s : State) (v : Word) (hr : i.readsAcc = false)
    (hw : i.writesAcc = true) : exec i (s.setAcc v) = exec i s := by
  cases i with
  | ldc _ | ldv _ | ldiv _ | ldrs _ | ldrf _ | ldsp | ldfp | ldra =>
    exact execute_congr rfl rfl
  | add _ | adc _ | and _ | or _ | xor _ | not | rar | eql _ => cases hr
  | _ => cases hw

/-- A body that neither reads nor writes ACC: from a state with another ACC it answers the same, that ACC
kept. -/
def AccBlind (body : State → Except Fault State) : Prop :=
  ∀ (t : State) (v : Word), body (t.setAcc v) = (body t).map (State.setAcc · v)

/-- The instructions R22 lists neither as readers nor as writers: HALT, JMP, CALL and RET. -/
theorem exec_eq_execute_accBlind {i : Instr} (hr : i.readsAcc = false) (hw : i.writesAcc = false)
    (hi : i ≠ .halt) : ∃ body, (∀ s, exec i s = execute body s) ∧ AccBlind body := by
  cases i with
  | halt => exact absurd rfl hi
  | jmp a => exact ⟨_, exec_jmp a, fun _ _ => rfl⟩
  | call a => exact ⟨_, exec_call a, fun _ _ => rfl⟩
  | ret =>
    refine ⟨_, exec_ret, fun t v => ?_⟩
    rw [State.setAcc_ra]
    cases coerceToAddress (sval t.ra) <;> rfl
  | stv _ | stiv _ | strs _ | strf _ | jmn _ | stsp | stfp | stra => cases hr
  | _ => cases hw

@[simp] theorem State.setAcc_advanced (s : State) (v : Word) :
    (s.setAcc v).advanced = s.advanced.setAcc v := rfl

/-- Changing ACC changes no next state of such an instruction but ACC itself. -/
theorem exec_setAcc_of_next {i : Instr} {s t : State} (v : Word) (hr : i.readsAcc = false)
    (hw : i.writesAcc = false) (h : exec i s = .next t) : exec i (s.setAcc v) = .next (t.setAcc v) := by
  by_cases hi : i = .halt
  · subst hi
    cases h
  · obtain ⟨body, hexec, hblind⟩ := exec_eq_execute_accBlind hr hw hi
    obtain ⟨hip, hbody⟩ := execute_next_iff.1 (hexec s ▸ h)
    exact hexec _ ▸ execute_next_iff.2 ⟨hip, by simp [hblind s.advanced v, hbody, Except.map]⟩

/-- Changing ACC changes no fault of an instruction that does not read it. -/
theorem exec_setAcc_of_fault {i : Instr} {s : State} {e : Fault} (v : Word) (hr : i.readsAcc = false)
    (h : exec i s = .fault e) : exec i (s.setAcc v) = .fault e := by
  by_cases hi : i = .halt
  · subst hi
    exact h
  cases hw : i.writesAcc with
  | true => exact (exec_setAcc_of_overwrites s v hr hw).trans h
  | false =>
    obtain ⟨body, hexec, hblind⟩ := exec_eq_execute_accBlind hr hw hi
    rw [hexec, execute_fault_iff] at h ⊢
    refine h.imp_right fun ⟨hip, hbody⟩ => ⟨hip, ?_⟩
    simp [hblind s.advanced v, hbody, Except.map]

/-- Settles O26: no effect of an instruction outside R22's writers writes ACC, and outside its readers the
body either overwrites ACC unread or is blind to it. -/
theorem accumulatorReadersAndWriters : Obligations.AccumulatorReadersAndWriters :=
  ⟨fun _ _ _ => exec_next_acc, fun _ s v => exec_setAcc_of_overwrites s v,
    fun _ _ _ v hr hw => exec_setAcc_of_next v hr hw, fun _ _ v _ hr => exec_setAcc_of_fault v hr⟩

end Sys2Proof.Machine
end

section
/-! SUPPORT. The results of the instructions (41_load_store.md to 45_register_transfer.md): what each shape of
body answers away from the last address, and the obligations instruction by instruction. -/

namespace Sys2Proof.Machine

/-! ### Shapes of bodies -/

section

variable {s : State} (hip : s.ip ≠ 0xFFFFF#20)

include hip

/-- An operand that fails ends the step with its failure (R97). -/
theorem execute_bind_of_error {α : Type} {operand : State → Except Fault α}
    {rest : State → α → Except Fault State} {e : Fault} (h : operand s.advanced = .error e) :
    execute (fun t => operand t >>= rest t) s = .fault e :=
  execute_fault_iff.2 (.inr ⟨hip, bind_error_iff.2 (.inl h)⟩)

/-- A load through a computed address, from a set cell (R110 (a)). -/
theorem execute_load_of_set {address : State → Except Fault Address} {ea : Address} {m : Word}
    (hea : address s.advanced = .ok ea) (hm : Memory.read s.mem ea.toNat = some m) :
    execute (fun t => address t >>= fun a => loadAcc t a) s =
      .next { s with acc := m, x := 0, y := 0, ip := s.ip + 1 } :=
  execute_next_iff.2 ⟨hip, bind_ok_iff.2 ⟨ea, hea, loadAcc_ok_iff.2 ⟨m, hm, rfl⟩⟩⟩

/-- A load through a computed address, from an unset cell (R161). -/
theorem execute_load_of_unset {address : State → Except Fault Address} {ea : Address}
    (hea : address s.advanced = .ok ea) (hm : Memory.read s.mem ea.toNat = none) :
    execute (fun t => address t >>= fun a => loadAcc t a) s = .fault (.uninitializedMemory ea) :=
  execute_fault_iff.2 (.inr ⟨hip, bind_error_iff.2 (.inr ⟨ea, hea, loadAcc_error_iff.2 ⟨hm, rfl⟩⟩)⟩)

/-- ACC combined with a set cell (R126 to R128, R131). -/
theorem execute_accWithMemory_of_set {f : Word → Word → Word} {a : Address} {m : Word}
    (hm : Memory.read s.mem a.toNat = some m) :
    execute (fun t => accWithMemory f t a) s =
      .next { s with acc := f s.acc m, x := 0, y := 0, ip := s.ip + 1 } :=
  execute_next_iff.2 ⟨hip, accWithMemory_ok_iff.2 ⟨m, hm, rfl⟩⟩

theorem execute_accWithMemory_of_unset {f : Word → Word → Word} {a : Address}
    (hm : Memory.read s.mem a.toNat = none) :
    execute (fun t => accWithMemory f t a) s = .fault (.uninitializedMemory a) :=
  execute_fault_iff.2 (.inr ⟨hip, accWithMemory_error_iff.2 ⟨hm, rfl⟩⟩)

end

/-! ### Loads and stores -/

/-- Settles O35: LDC's body sets ACC behind stage 4 and cannot fail. -/
theorem ldcLoadsConstant : Obligations.LdcLoadsConstant := fun c _ =>
  ⟨decode_smallWord 0x0 (by decide) rfl c, fun hip => execute_next_iff.2 ⟨hip, rfl⟩⟩

theorem indirectAddress_of_pointer {t : State} {a ea : Address} {p : Word}
    (hp : Memory.read t.mem a.toNat = some p) (hea : sval p = ea.toNat) : indirectAddress t a = .ok ea :=
  indirectAddress_ok_iff.2 ⟨p, hp, coerceToAddress_eq_ok_iff.2 hea⟩

theorem indirectAddress_of_unset {t : State} {a : Address} (h : Memory.read t.mem a.toNat = none) :
    indirectAddress t a = .error (.uninitializedMemory a) :=
  indirectAddress_error_iff.2 (.inl ⟨h, rfl⟩)

theorem indirectAddress_of_outside {t : State} {a : Address} {p : Word}
    (hp : Memory.read t.mem a.toNat = some p) (hv : sval p < 0 ∨ 2 ^ 20 ≤ sval p) :
    indirectAddress t a = .error (.overflow (sval p)) :=
  indirectAddress_error_iff.2 (.inr ⟨p, hp, coerceToAddress_of_outside hv⟩)

/-- Settles O38: the pointer's cell, the pointer's value and the target's cell each decide in turn. -/
theorem ldivLoadsThroughPointer : Obligations.LdivLoadsThroughPointer := fun a _ =>
  ⟨decode_smallWord 0xA (by decide) rfl a, fun hip =>
    ⟨fun hunset => execute_bind_of_error hip (indirectAddress_of_unset hunset), fun _ hp =>
      ⟨fun hv => execute_bind_of_error hip (indirectAddress_of_outside hp hv), fun _ hea =>
        ⟨execute_load_of_unset hip (indirectAddress_of_pointer hp hea),
          fun _ => execute_load_of_set hip (indirectAddress_of_pointer hp hea)⟩⟩⟩⟩

/-- Settles O39: the pointer's cell and its value decide; a store to the target cannot fail. -/
theorem stivStoresThroughPointer : Obligations.StivStoresThroughPointer := fun a _ =>
  ⟨decode_smallWord 0xB (by decide) rfl a, fun hip =>
    ⟨fun hunset => execute_bind_of_error hip (indirectAddress_of_unset hunset), fun _ hp =>
      ⟨fun hv => execute_bind_of_error hip (indirectAddress_of_outside hp hv), fun _ hea =>
        exec_of_storeAddress (i := .stiv a) hip
          (congrArg Except.toOption (indirectAddress_of_pointer hp hea))⟩⟩⟩

theorem relativeAddress_eq_ok_iff {base : Word} {d ea : Address} :
    relativeAddress base d = .ok ea ↔ sval base + d.toNat = ea.toNat := coerceToAddress_eq_ok_iff

theorem relativeAddress_of_outside {base : Word} {d : Address}
    (h : sval base + d.toNat < 0 ∨ 2 ^ 20 ≤ sval base + d.toNat) :
    relativeAddress base d = .error (.overflow (sval base + d.toNat)) := coerceToAddress_of_outside h

/-- Settles O40: the sum and then its cell decide, with SP and with FP as the base. -/
theorem relativeLoadsAddBaseAndDisplacement : Obligations.RelativeLoadsAddBaseAndDisplacement :=
  fun _ _ hip =>
    ⟨⟨fun h => execute_bind_of_error hip (relativeAddress_of_outside h), fun _ hea =>
        ⟨execute_load_of_unset hip (relativeAddress_eq_ok_iff.2 hea),
          fun _ => execute_load_of_set hip (relativeAddress_eq_ok_iff.2 hea)⟩⟩,
      ⟨fun h => execute_bind_of_error hip (relativeAddress_of_outside h), fun _ hea =>
        ⟨execute_load_of_unset hip (relativeAddress_eq_ok_iff.2 hea),
          fun _ => execute_load_of_set hip (relativeAddress_eq_ok_iff.2 hea)⟩⟩⟩

/-- Settles O41: the sum decides, with SP and with FP as the base; a store to it cannot fail. -/
theorem relativeStoresAddBaseAndDisplacement : Obligations.RelativeStoresAddBaseAndDisplacement :=
  fun d _ hip =>
    ⟨⟨fun h => execute_bind_of_error hip (relativeAddress_of_outside h), fun _ hea =>
        exec_of_storeAddress (i := .strs d) hip (congrArg Except.toOption (relativeAddress_eq_ok_iff.2 hea))⟩,
      ⟨fun h => execute_bind_of_error hip (relativeAddress_of_outside h), fun _ hea =>
        exec_of_storeAddress (i := .strf d) hip (congrArg Except.toOption (relativeAddress_eq_ok_iff.2 hea))⟩⟩

/-! ### Arithmetic -/

/-- Settles O42: the cell decides, and its word goes to the sum and to Y. -/
theorem addSumsAndShadows : Obligations.AddSumsAndShadows := fun a _ =>
  ⟨decode_smallWord 0x3 (by decide) rfl a, fun hip =>
    ⟨fun m hm => execute_next_iff.2 ⟨hip, bind_ok_iff.2 ⟨m, memRead_ok_iff.2 hm, rfl⟩⟩,
      fun hunset => execute_bind_of_error hip (memRead_error_iff.2 ⟨hunset, rfl⟩)⟩⟩

/-- R10, D4: an argument extended with zeros reads as its unsigned number. -/
theorem sval_zextWord (a : Address) : sval (zextWord a) = a.toNat := by
  have ha := a.isLt
  have hz : (zextWord a).toNat = a.toNat := BitVec.toNat_setWidth_of_le (by decide)
  rw [sval, BitVec.toInt_eq_toNat_of_lt (by omega), hz]

/-- Settles O43: ADC is the addition of its constant extended with zeros, and cannot fail. -/
theorem adcAddsUnsignedConstant : Obligations.AdcAddsUnsignedConstant := by
  refine fun c s => ⟨decode_smallWord 0xD (by decide) rfl c, fun hip => ?_⟩
  rw [← sval_zextWord]
  exact execute_next_iff.2 ⟨hip, rfl⟩

/-! ### Bitwise operations, rotation and comparison -/

/-- Settles O44: each of the three combines ACC with the cell, which decides, and the words' operations act bit
by bit. -/
theorem bitwiseOperationsWithCell : Obligations.BitwiseOperationsWithCell := fun a _ =>
  ⟨⟨decode_smallWord 0x4 (by decide) rfl a, decode_smallWord 0x5 (by decide) rfl a,
      decode_smallWord 0x6 (by decide) rfl a⟩, fun hip =>
    ⟨fun _ hm =>
      ⟨⟨_, execute_accWithMemory_of_set hip hm, fun _ _ => BitVec.getLsbD_and⟩,
        ⟨_, execute_accWithMemory_of_set hip hm, fun _ _ => BitVec.getLsbD_or⟩,
        ⟨_, execute_accWithMemory_of_set hip hm, fun _ _ => BitVec.getLsbD_xor⟩⟩,
      fun hunset =>
        ⟨execute_accWithMemory_of_unset hip hunset, execute_accWithMemory_of_unset hip hunset,
          execute_accWithMemory_of_unset hip hunset⟩⟩⟩

/-- R129: the complement in the signed reading. -/
theorem sval_not (w : Word) : sval (~~~w) = -sval w - 1 := by
  have hw := w.isLt
  rw [sval, sval, BitVec.toInt_eq_toNat_cond, BitVec.toInt_eq_toNat_cond, BitVec.toNat_not]
  omega

/-- Settles O45: NOT's body complements ACC behind stage 4 and cannot fail. -/
theorem notComplementsAccumulator : Obligations.NotComplementsAccumulator := by
  refine fun z s => ⟨decode_largeWord 0xF1 (by decide) rfl z, fun hip =>
    ⟨~~~s.acc, execute_next_iff.2 ⟨hip, rfl⟩, fun k hk => ?_, sval_not s.acc⟩⟩
  rw [BitVec.getLsbD_not, decide_eq_true hk, Bool.true_and]

/-- R130: each bit of the rotated word is the bit one place up, round the word. -/
theorem getLsbD_rotateRightOne (w : Word) {k : Nat} (hk : k < 24) :
    (rotateRightOne w).getLsbD k = w.getLsbD ((k + 1) % 24) := by
  rw [rotateRightOne, BitVec.getLsbD_rotateRight_of_lt (by decide)]
  by_cases h : k < 23
  · simp [h, Nat.mod_eq_of_lt (show k + 1 < 24 by omega), Nat.add_comm]
  · obtain rfl : k = 23 := by omega
    simp

theorem getLsbD_iterate_rotateRightOne (n : Nat) (w : Word) {k : Nat} (hk : k < 24) :
    (rotateRightOne^[n] w).getLsbD k = w.getLsbD ((k + n) % 24) := by
  induction n generalizing w with
  | zero => rw [Function.iterate_zero_apply, Nat.add_zero, Nat.mod_eq_of_lt hk]
  | succ n ih =>
    rw [Function.iterate_succ_apply, ih, getLsbD_rotateRightOne _ (Nat.mod_lt _ (by decide)), Nat.mod_add_mod,
      Nat.add_assoc]

/-- Settles O46: n rotations move each bit n places round the word, so 24 of them move none. -/
theorem rarRotatesOneBit : Obligations.RarRotatesOneBit := by
  refine ⟨fun s hip => ⟨rotateRightOne s.acc, execute_next_iff.2 ⟨hip, rfl⟩,
    getLsbD_rotateRightOne _ (by decide), fun k hk => ?oneBit⟩, fun w => BitVec.eq_of_getLsbD_eq fun k hk => ?all⟩
  case oneBit => rw [getLsbD_rotateRightOne _ (by omega), Nat.mod_eq_of_lt (by omega)]
  case all => rw [getLsbD_iterate_rotateRightOne 24 w hk, Nat.add_mod_right, Nat.mod_eq_of_lt hk]

/-- Settles O47: EQL combines ACC with the cell, which decides, by comparing the two words. -/
theorem eqlComparesWithCell : Obligations.EqlComparesWithCell := by
  refine fun a s hip => ⟨fun hm => ?equal, fun m hm hne => ?unequal, execute_accWithMemory_of_unset hip⟩
  case equal =>
    rw [exec_eql, execute_accWithMemory_of_set hip hm, equalWord, if_pos rfl]
    rfl
  case unequal =>
    rw [exec_eql, execute_accWithMemory_of_set hip hm, equalWord, if_neg hne.symm]

/-! ### Control flow -/

/-- Settles O49: JMN's body sets IP behind stage 4 where bit 23 of ACC is set, and bit 23 is the sign. -/
theorem jmnJumpsIfNegative : Obligations.JmnJumpsIfNegative := by
  refine fun a s hip => ⟨fun hneg => ?_, fun hpos => ?_⟩ <;> refine execute_next_iff.2 ⟨hip, ?_⟩
  · rw [State.advanced_acc, if_pos ((isNegative_iff s.acc).2 hneg)]
    rfl
  · rw [State.advanced_acc, if_neg (fun h => not_lt.2 hpos ((isNegative_iff s.acc).1 h))]
    rfl

/-- R138, D10: the address after the CALL as a word. -/
theorem zextWord_succ {a : Address} (h : a ≠ 0xFFFFF#20) :
    zextWord (a + 1) = BitVec.ofNat 24 (a.toNat + 1) := by
  apply BitVec.eq_of_toNat_eq
  rw [zextWord, BitVec.toNat_setWidth_of_le (by decide), toNat_succ_of_ne_last h, BitVec.toNat_ofNat]
  omega

/-- Settles O50: CALL's body saves the IP that stage 4 left and sets its argument. -/
theorem callSavesFollowingAddress : Obligations.CallSavesFollowingAddress := by
  intro a s hip
  rw [← zextWord_succ hip]
  exact execute_next_iff.2 ⟨hip, rfl⟩

/-- Settles O51: RET's one operand is the check of RA's signed reading. -/
theorem retReturnsToCheckedAddress : Obligations.RetReturnsToCheckedAddress := fun _ hip =>
  ⟨fun target h => execute_next_iff.2 ⟨hip, bind_ok_iff.2 ⟨target, coerceToAddress_eq_ok_iff.2 h, rfl⟩⟩,
    fun h => execute_bind_of_error hip (coerceToAddress_of_outside h)⟩

/-! ### Register transfers -/

/-- Settles O52: each body copies its register to ACC behind stage 4 and cannot fail. -/
theorem transfersToAccumulator : Obligations.TransfersToAccumulator := fun z _ =>
  ⟨⟨decode_largeWord 0xF6 (by decide) rfl z, decode_largeWord 0xF8 (by decide) rfl z,
      decode_largeWord 0xF4 (by decide) rfl z⟩, fun hip =>
    ⟨execute_next_iff.2 ⟨hip, rfl⟩, execute_next_iff.2 ⟨hip, rfl⟩, execute_next_iff.2 ⟨hip, rfl⟩⟩⟩

/-- Settles O53: each body copies ACC to its register behind stage 4 and cannot fail. -/
theorem transfersFromAccumulator : Obligations.TransfersFromAccumulator := fun z _ =>
  ⟨⟨decode_largeWord 0xF7 (by decide) rfl z, decode_largeWord 0xF9 (by decide) rfl z,
      decode_largeWord 0xF5 (by decide) rfl z⟩, fun hip =>
    ⟨execute_next_iff.2 ⟨hip, rfl⟩, execute_next_iff.2 ⟨hip, rfl⟩, execute_next_iff.2 ⟨hip, rfl⟩⟩⟩

end Sys2Proof.Machine
end

section
/-! SUPPORT. Loading an image, supplying a state and going through the history (70_reset_and_hazards.md R184,
R186, R190 to R193), and the obligations about the host. -/

namespace Sys2Proof.Machine

/-! ### Loading -/

/-- An image without a repeated address has one entry for each address, wherever the search starts. -/
theorem find?_reverse_of_nodup {image : Image} (hnodup : (image.map Prod.fst).Nodup) {a : Address} {w : Word}
    (h : (a, w) ∈ image) : image.reverse.find? (fun e => e.1 == a) = some (a, w) := by
  cases hfind : image.reverse.find? fun e => e.1 == a with
  | none => simpa using List.find?_eq_none.1 hfind (a, w) (List.mem_reverse.2 h)
  | some e =>
    have he : e.1 = a := by simpa using List.find?_some hfind
    rw [List.inj_on_of_nodup_map hnodup (List.mem_reverse.1 (List.mem_of_find?_eq_some hfind)) h he]

theorem find?_reverse_of_notMem {image : Image} {a : Address} (h : a ∉ image.map Prod.fst) :
    image.reverse.find? (fun e => e.1 == a) = none := by
  refine List.find?_eq_none.2 fun e he heq => h ?_
  exact List.mem_map.2 ⟨e, List.mem_reverse.1 he, eq_of_beq heq⟩

/-- Settles O56: a cell holds the image's last word for it, which here is its only one, or is unset as the reset
cell is; loading leaves the registers. -/
theorem bootHoldsExactlyTheImage : Obligations.BootHoldsExactlyTheImage := by
  refine fun image hnodup => ⟨fun a w h => ?_, fun a h => ?_, ?_⟩
  · rw [boot, readCell_loadImage, find?_reverse_of_nodup hnodup h]
    rfl
  · rw [boot, readCell_loadImage, find?_reverse_of_notMem h]
    rfl
  · rw [boot, loadImage_eq]
    rfl

/-- A write above every listed address is listed last. -/
theorem Memory.write_eq_append {m : Memory} {a : Nat} (h : ∀ c ∈ m, c.1 < a) (w : Word) :
    Memory.write m a w = m ++ [(a, w)] := by
  induction m with
  | nil => rfl
  | cons c m ih =>
    obtain ⟨k, v⟩ := c
    have hk : k < a := h (k, v) List.mem_cons_self
    simp [Memory.write, Nat.lt_asymm hk, Nat.ne_of_gt hk, ih fun d hd => h d (List.mem_cons_of_mem _ hd)]

/-- Loading cells in the order of their addresses, above those already set, lists them behind these. -/
theorem loadImage_mem_of_pairwise {image : Image} {s : State}
    (h : (s.mem ++ image.map fun e => (e.1.toNat, e.2)).Pairwise fun c d => c.1 < d.1) :
    (loadImage image s).mem = s.mem ++ image.map fun e => (e.1.toNat, e.2) := by
  induction image generalizing s with
  | nil => exact (List.append_nil _).symm
  | cons e image ih =>
    have hwrite : (memWrite s e.1 e.2).mem = s.mem ++ [(e.1.toNat, e.2)] := by
      refine Memory.write_eq_append (fun c hc => ?_) e.2
      exact (List.pairwise_append.1 h).2.2 c hc _ List.mem_cons_self
    have hmem := ih (s := memWrite s e.1 e.2) (by simpa [hwrite] using h)
    calc (loadImage (e :: image) s).mem = (loadImage image (memWrite s e.1 e.2)).mem := rfl
      _ = s.mem ++ (e :: image).map fun e => (e.1.toNat, e.2) := by simpa [hwrite] using hmem

/-! ### Supplied states -/

/-- The outside data that D25 lets through: the right side of the obligation's condition. -/
structure Supplied.Fits (d : Supplied) : Prop where
  ip : 0 ≤ d.ip ∧ d.ip < 2 ^ 20
  registers : ∀ v ∈ [d.acc, d.x, d.y, d.ir, d.ra, d.sp, d.fp], -(2 ^ 23) ≤ v ∧ v < 2 ^ 24
  cells : ∀ c ∈ d.cells, (0 ≤ c.1 ∧ c.1 < 2 ^ 20) ∧ -(2 ^ 23) ≤ c.2 ∧ c.2 < 2 ^ 24

/-- A supplied cell as an image entry, where it is one (R39). -/
def suppliedEntry (c : Int × Int) : Address × Word := (BitVec.ofInt 20 c.1, coerceToValue c.2)

/-- The supplied registers, with no cell set. -/
def suppliedRegisters (d : Supplied) : State where
  acc := coerceToValue d.acc
  x := coerceToValue d.x
  y := coerceToValue d.y
  ir := coerceToValue d.ir
  ip := BitVec.ofInt 20 d.ip
  ra := coerceToValue d.ra
  sp := coerceToValue d.sp
  fp := coerceToValue d.fp
  mem := []

/-- The state that data which fits gives (R39, R186). -/
def suppliedState (d : Supplied) : State := loadImage (d.cells.map suppliedEntry) (suppliedRegisters d)

theorem mapM_ok_iff {ε α β : Type} {f : α → Except ε β} {p : α → Prop} {g : α → β}
    (hf : ∀ a b, f a = .ok b ↔ p a ∧ g a = b) {l : List α} {bs : List β} :
    l.mapM f = .ok bs ↔ (∀ a ∈ l, p a) ∧ l.map g = bs := by
  induction l generalizing bs with
  | nil => simp [pure, Except.pure]
  | cons a l ih =>
    simp only [List.mapM_cons, bind_ok_iff, hf, ih, pure, Except.pure, Except.ok.injEq, List.forall_mem_cons,
      List.map_cons]
    constructor
    · rintro ⟨b, ⟨ha, rfl⟩, cs, ⟨hl, rfl⟩, rfl⟩
      exact ⟨⟨ha, hl⟩, rfl⟩
    · rintro ⟨⟨ha, hl⟩, rfl⟩
      exact ⟨_, ⟨ha, rfl⟩, _, ⟨hl, rfl⟩, rfl⟩

theorem suppliedCell_eq_ok_iff (c : Int × Int) (e : Address × Word) :
    suppliedCell c = .ok e ↔
      ((0 ≤ c.1 ∧ c.1 < 2 ^ 20) ∧ -(2 ^ 23) ≤ c.2 ∧ c.2 < 2 ^ 24) ∧ suppliedEntry c = e := by
  have hdomain : (0 ≤ c.1 ∧ c.1 ≤ 0xFFFFF) ↔ (0 ≤ c.1 ∧ c.1 < 2 ^ 20) := by omega
  rw [suppliedCell_ok_iff, coerceToAddress_ok_iff, suppliedWord_ok_iff, hdomain, suppliedEntry, Prod.ext_iff]
  tauto

/-- Supplying a state answers exactly for data that fits, and answers that data's state (R39, R186). -/
theorem supplyState_eq_ok_iff {d : Supplied} {s : State} :
    supplyState d = .ok s ↔ d.Fits ∧ suppliedState d = s := by
  have hdomain : (0 ≤ d.ip ∧ d.ip ≤ 0xFFFFF) ↔ (0 ≤ d.ip ∧ d.ip < 2 ^ 20) := by omega
  simp only [supplyState_ok_iff, coerceToAddress_ok_iff, suppliedWord_ok_iff,
    mapM_ok_iff suppliedCell_eq_ok_iff, hdomain]
  constructor
  · rintro ⟨_, _, _, _, _, _, _, _, _, ⟨hip, rfl⟩, ⟨hacc, rfl⟩, ⟨hx, rfl⟩, ⟨hy, rfl⟩, ⟨hir, rfl⟩, ⟨hra, rfl⟩,
      ⟨hsp, rfl⟩, ⟨hfp, rfl⟩, ⟨hcells, rfl⟩, rfl⟩
    refine ⟨⟨hip, ?_, hcells⟩, rfl⟩
    simp only [List.forall_mem_cons]
    exact ⟨hacc, hx, hy, hir, hra, hsp, hfp, nofun⟩
  · rintro ⟨⟨hip, hregisters, hcells⟩, rfl⟩
    simp only [List.forall_mem_cons] at hregisters
    obtain ⟨hacc, hx, hy, hir, hra, hsp, hfp, -⟩ := hregisters
    exact ⟨_, _, _, _, _, _, _, _, _, ⟨hip, rfl⟩, ⟨hacc, rfl⟩, ⟨hx, rfl⟩, ⟨hy, rfl⟩, ⟨hir, rfl⟩, ⟨hra, rfl⟩,
      ⟨hsp, rfl⟩, ⟨hfp, rfl⟩, ⟨hcells, rfl⟩, rfl⟩

/-- The search for a cell among the entries is the search among the supplied addresses, which are addresses. -/
theorem readCell_suppliedState {d : Supplied} (hd : d.Fits) (a : Address) :
    readCell (suppliedState d) a =
      (d.cells.reverse.find? fun c => c.1 == (a.toNat : Int)).map fun c => coerceToValue c.2 := by
  have hcongr : d.cells.reverse.find? (fun c => (suppliedEntry c).1 == a) =
      d.cells.reverse.find? fun c => c.1 == (a.toNat : Int) := by
    refine List.find?_congr fun c hc => ?_
    have hc' := hd.cells c (List.mem_reverse.1 hc)
    rw [Bool.eq_iff_iff, beq_iff_eq, beq_iff_eq, ← coerceToAddress_eq_ok_iff, coerceToAddress_ok_iff]
    exact (and_iff_right (by omega)).symm
  rw [suppliedState, readCell_loadImage, ← List.map_reverse, List.find?_map]
  change Option.or (Option.map Prod.snd (Option.map suppliedEntry
    (d.cells.reverse.find? fun c => (suppliedEntry c).1 == a))) none = _
  rw [hcongr, Option.or_none, Option.map_map]
  rfl

/-- The data that describes a state: the signed readings of its words, cell by cell. -/
def State.toSupplied (s : State) : Supplied where
  ip := s.ip.toNat
  acc := sval s.acc
  x := sval s.x
  y := sval s.y
  ir := sval s.ir
  ra := sval s.ra
  sp := sval s.sp
  fp := sval s.fp
  cells := s.mem.map fun c => ((c.1 : Int), sval c.2)

theorem sval_bounds (w : Word) : -(2 ^ 23) ≤ sval w ∧ sval w < 2 ^ 24 := by
  have hlo := BitVec.le_toInt w
  have hhi := BitVec.toInt_lt (x := w)
  rw [sval]
  omega

theorem fits_toSupplied {s : State} (hs : s.Inv) : s.toSupplied.Fits where
  ip := by
    have hlt := s.ip.isLt
    simp only [State.toSupplied]
    omega
  registers := by
    simp only [State.toSupplied, List.forall_mem_cons]
    exact ⟨sval_bounds _, sval_bounds _, sval_bounds _, sval_bounds _, sval_bounds _, sval_bounds _,
      sval_bounds _, nofun⟩
  cells c hc := by
    obtain ⟨e, he, rfl⟩ := List.mem_map.1 hc
    have hlt : e.1 < 2 ^ 20 := hs.2 e he
    exact ⟨⟨by omega, by omega⟩, sval_bounds e.2⟩

/-- A canonical memory's cells, supplied in its order, load to that memory. -/
theorem suppliedState_toSupplied {s : State} (hs : s.Inv) : suppliedState s.toSupplied = s := by
  have hcells : (s.toSupplied.cells.map suppliedEntry).map (fun e => (e.1.toNat, e.2)) = s.mem := by
    rw [State.toSupplied, List.map_map, List.map_map]
    refine (List.map_congr_left fun c hc => ?_).trans (List.map_id _)
    have hlt : c.1 < 1048576 := hs.2 c hc
    simp [suppliedEntry, Nat.mod_eq_of_lt hlt]
  rw [suppliedState, loadImage_eq, loadImage_mem_of_pairwise (by rw [hcells]; exact hs.1), hcells]
  simp [suppliedRegisters, State.toSupplied, State.setMem]

/-- What a supplied state is: canonical, with the supplied registers, and with the supplied cells set. -/
theorem suppliedState_spec {d : Supplied} (hd : d.Fits) :
    (suppliedState d).Inv ∧ ((suppliedState d).ip.toNat : Int) = d.ip ∧
      suppliedState d = (suppliedRegisters d).setMem (suppliedState d).mem := by
  have hregs := loadImage_eq (d.cells.map suppliedEntry) (suppliedRegisters d)
  have hip : coerceToAddress d.ip = .ok (BitVec.ofInt 20 d.ip) := by
    have := hd.ip
    exact coerceToAddress_ok_iff.2 ⟨by omega, rfl⟩
  refine ⟨loadImage_inv _ Memory.wf_nil, ?_, hregs⟩
  rw [suppliedState, hregs]
  exact (coerceToAddress_eq_ok_iff.1 hip).symm

theorem supplyState_of_ip_outside {d : Supplied} (h : d.ip < 0 ∨ 2 ^ 20 ≤ d.ip) :
    supplyState d = .error (.ipOutside d.ip) := by
  have hip : suppliedAddress .ipOutside d.ip = .error (.ipOutside d.ip) := by
    simp only [suppliedAddress, coerceToAddress_of_outside h]
  exact bind_error_iff.2 (.inl hip)

theorem exists_supplyState_iff {d : Supplied} : (∃ s, supplyState d = .ok s) ↔ d.Fits := by
  simp only [supplyState_eq_ok_iff, exists_and_left, exists_eq', and_true]

/-- Settles O57: data is taken exactly where it fits, and then gives its registers with its cells loaded; a
state that meets the invariant is given by its own data. -/
theorem suppliedStatesMeetInvariant : Obligations.SuppliedStatesMeetInvariant := by
  refine ⟨fun d s h => ?_, fun d => ?_, fun d => supplyState_of_ip_outside, fun s hs => ?_⟩
  · obtain ⟨hd, rfl⟩ := supplyState_eq_ok_iff.1 h
    obtain ⟨hinv, hip, hregs⟩ := suppliedState_spec hd
    exact ⟨hinv, hip, congrArg State.acc hregs, congrArg State.x hregs, congrArg State.y hregs,
      congrArg State.ir hregs, congrArg State.ra hregs, congrArg State.sp hregs, congrArg State.fp hregs,
      readCell_suppliedState hd⟩
  · exact exists_supplyState_iff.trans
      ⟨fun ⟨hip, hregisters, hcells⟩ => ⟨hip, hregisters, hcells⟩,
        fun ⟨hip, hregisters, hcells⟩ => ⟨hip, hregisters, hcells⟩⟩
  · exact ⟨s.toSupplied, supplyState_eq_ok_iff.2 ⟨fits_toSupplied hs, suppliedState_toSupplied hs⟩⟩

/-! ### History -/

/-- Going back moves the view cursor alone (R192). -/
theorem History.iterate_previousStep (h : History) (k : Nat) :
    History.previousStep^[k] h = { h with view := h.view - k } := by
  induction k with
  | zero => rfl
  | succ k ih =>
    rw [Function.iterate_succ_apply', ih]
    rfl

/-- Where a successor is buffered, going forward moves the view cursor alone (R191). -/
theorem History.nextStep_of_buffered {h : History} (hv : h.view + 1 < h.buffer.length) :
    h.nextStep = .next { h with view := h.view + 1 } := if_pos hv

/-- Settles O58: k steps back move the cursor k places in the buffer, and one forward from there finds a
successor buffered. -/
theorem historyReplayShowsSameSnapshot : Obligations.HistoryReplayShowsSameSnapshot := by
  intro h k hk hview
  rw [History.iterate_previousStep, History.iterate_previousStep]
  refine ⟨rfl, fun hk0 => ?_, rfl⟩
  have hback : h.view - (k - 1) = h.view - k + 1 := by omega
  rw [hback]
  refine History.nextStep_of_buffered ?_
  show h.view - k + 1 < h.buffer.length
  omega

end Sys2Proof.Machine
end
